-- ==== Sys2Proof/Word.lean ====
section
/-! DEFINITION. The widths of the block's values (00_scope.md R6, R7). -/

namespace Sys2Proof

/-- A u32: an operand register, a command word, φ, e, d (R6, R7 `WORD_W`). -/
abbrev Word := BitVec 32

/-- A u16: an entropy word or a prime candidate (R6, R7 `PRIME_W`). -/
abbrev Half := BitVec 16

/-- An s64 in two's complement: a coefficient of the extended Euclidean algorithm (R7 `COEF_W`, R25). -/
abbrev Coef := BitVec 64

/-- The name of one of the eight operand registers: three bits, every value of which names one (R7 `NREG`, R53). -/
abbrev RegIdx := BitVec 3

/-- One byte lane of the register bus (R37). -/
abbrev Byte := BitVec 8

end Sys2Proof
end

