-- ==== Sys2Proof/Config.lean ====
section
/-! DEFINITION. The block's parameters (00_scope.md R7): constants the spec fixes, and opaque constants for what it leaves OPEN. -/

namespace Sys2Proof.Config

/-- The exponent of SELE's fast path (R7 `E_FIXED`, R89). -/
abbrev eFixed : Word := 65537

/-- SELE takes its fast path when φ is above this (R7 `FAST_THRESHOLD`, R89). -/
abbrev fastThreshold : Word := 65537

/-- The largest 16-bit value: the bound of the domain checks of TOT and ISPRIME (R105). -/
abbrev maxHalf : Word := 0xFFFF

/-- The register window's size in bytes (R7 `WINDOW_BYTES`). -/
abbrev windowBytes : Nat := 64

/-- How many of the 64-byte blocks of the platform's address space lie below the window. The spec leaves the window's place OPEN (R7 `MIE_BASE`,
R35, D3), so this constant has no body. -/
opaque mieBlock : Nat

/-- `MIE_BASE`: any multiple of 64 (R35). -/
def mieBase : Nat := windowBytes * mieBlock

/-- How reset is asserted (R122 `RESET_KIND`). -/
inductive ResetKind where
  | synchronous
  | asynchronous
deriving DecidableEq, Repr, Inhabited

/-- `RESET_KIND` is OPEN (R7, D25). Reset is one event with the same outcome either way (R122), so no transition reads it. -/
opaque resetKind : ResetKind

/-- `BUS_PROTOCOL`, the name of the register bus's signal-level handshake and error signalling, is OPEN (R7, D2, 93_implementation_defined.md row 2).
The model works at transaction level, as that row says, so no transition reads it (log 11). -/
opaque busProtocol : String

end Sys2Proof.Config
end

