-- ==== Sys2Proof/Syntax.lean ====
section
/-! DEFINITION. The six commands of MIE-1 (30_encoding.md R55), one constructor for each row of spec/opcode_table.json. -/

namespace Sys2Proof

/-- A command with its register operands in the order of R55 and R61. -/
inductive Instr where
  /-- `GENP rd`: generate a random prime candidate (R81). -/
  | genp (rd : RegIdx)
  /-- `TOT rd, rs1, rs2`: the totient of p = x[rs1] and q = x[rs2] (R86). -/
  | tot (rd rs1 rs2 : RegIdx)
  /-- `SELE rd, rs1`: select a public exponent for φ = x[rs1] (R92). -/
  | sele (rd rs1 : RegIdx)
  /-- `INV rd, rs1, rs2`: the inverse of e = x[rs1] modulo φ = x[rs2] (R101). -/
  | inv (rd rs1 rs2 : RegIdx)
  /-- `GCD rd, rs1, rs2`: the greatest common divisor of x[rs1] and x[rs2] (R95). -/
  | gcd (rd rs1 rs2 : RegIdx)
  /-- `ISPRIME rd, rs1`: the primality test of x[rs1] (R82). -/
  | isprime (rd rs1 : RegIdx)
deriving DecidableEq, Repr

/-- The opcode of a legal command (R55): what the engine latches of it as `op` (10_state.md R24). -/
inductive Opcode where
  | genp
  | tot
  | sele
  | inv
  | gcd
  | isprime
deriving DecidableEq, Repr

/-- A command's opcode (R55). -/
def Instr.opcode : Instr → Opcode
  | .genp _ => .genp
  | .tot _ _ _ => .tot
  | .sele _ _ => .sele
  | .inv _ _ _ => .inv
  | .gcd _ _ _ => .gcd
  | .isprime _ _ => .isprime

/-- A command's RD field (R52): every command has one. -/
def Instr.rd : Instr → RegIdx
  | .genp rd => rd
  | .tot rd _ _ => rd
  | .sele rd _ => rd
  | .inv rd _ _ => rd
  | .gcd rd _ _ => rd
  | .isprime rd _ => rd

/-- A command's RS1 field: 0 for GENP, which does not use it (R56). -/
def Instr.rs1 : Instr → RegIdx
  | .genp _ => 0
  | .tot _ rs1 _ => rs1
  | .sele _ rs1 => rs1
  | .inv _ rs1 _ => rs1
  | .gcd _ rs1 _ => rs1
  | .isprime _ rs1 => rs1

/-- A command's RS2 field: 0 for GENP, SELE and ISPRIME, which do not use it (R56). -/
def Instr.rs2 : Instr → RegIdx
  | .genp _ => 0
  | .tot _ _ rs2 => rs2
  | .sele _ _ => 0
  | .inv _ _ rs2 => rs2
  | .gcd _ _ rs2 => rs2
  | .isprime _ _ => 0

end Sys2Proof
end

