-- ==== Sys2Proof/WellFormed.lean ====
section
/-! DEFINITION. When the fields of a command word make a command (30_encoding.md R52, R55, R56). -/

namespace Sys2Proof

/-- The 4-bit value of an opcode (R55). -/
def Opcode.bits : Opcode → BitVec 4
  | .genp => 0x1
  | .tot => 0x2
  | .sele => 0x3
  | .inv => 0x4
  | .gcd => 0x5
  | .isprime => 0x6

/-- The opcode a 4-bit value stands for: none for 0x0 and for 0x7 to 0xF, which are reserved (R55). -/
def Opcode.ofBits (b : BitVec 4) : Option Opcode :=
  if b = 0x1 then some .genp
  else if b = 0x2 then some .tot
  else if b = 0x3 then some .sele
  else if b = 0x4 then some .inv
  else if b = 0x5 then some .gcd
  else if b = 0x6 then some .isprime
  else none

/-- Whether an opcode uses its RS1 field (R55, column "fields used"). -/
def Opcode.usesRs1 : Opcode → Bool
  | .genp => false
  | .tot | .sele | .inv | .gcd | .isprime => true

/-- Whether an opcode uses its RS2 field (R55, column "fields used"). -/
def Opcode.usesRs2 : Opcode → Bool
  | .genp | .sele | .isprime => false
  | .tot | .inv | .gcd => true

/-- A command word split into the fields of R52. -/
structure CommandFields where
  /-- Bits 3:0. -/
  op : BitVec 4
  /-- Bits 6:4. -/
  rd : RegIdx
  /-- Bit 7, reserved. -/
  reserved7 : BitVec 1
  /-- Bits 10:8. -/
  rs1 : RegIdx
  /-- Bit 11, reserved. -/
  reserved11 : BitVec 1
  /-- Bits 14:12. -/
  rs2 : RegIdx
  /-- Bits 31:15, reserved. -/
  reservedHigh : BitVec 17
deriving DecidableEq, Repr

namespace CommandFields

/-- Every reserved bit is 0 (R52). -/
def reservedClear (f : CommandFields) : Bool :=
  f.reservedHigh == 0 && f.reserved11 == 0 && f.reserved7 == 0

/-- The opcode is one of the six (R55). -/
def opcodeAssigned (f : CommandFields) : Bool :=
  (Opcode.ofBits f.op).isSome

/-- A register field the opcode does not use is 0 (R56). -/
def unusedClear (f : CommandFields) : Bool :=
  match Opcode.ofBits f.op with
  | none => true
  | some op => (op.usesRs1 || f.rs1 == 0) && (op.usesRs2 || f.rs2 == 0)

/-- The fields are those of a legal word (R56). -/
def wellFormed (f : CommandFields) : Bool :=
  f.reservedClear && f.opcodeAssigned && f.unusedClear

end CommandFields

/-- The fields of a command's word, unused and reserved ones 0 (R56, R61). -/
def Instr.fields (i : Instr) : CommandFields :=
  { op := i.opcode.bits, rd := i.rd, reserved7 := 0, rs1 := i.rs1, reserved11 := 0, rs2 := i.rs2, reservedHigh := 0 }

/-- A command is well formed when its fields are. Every value of a 3-bit field names a register (R53), so every `Instr` is. -/
def Instr.wellFormed (i : Instr) : Bool :=
  i.fields.wellFormed

end Sys2Proof
end

