-- ==== Sys2Proof/Decode.lean ====
section
/-! DEFINITION. The decoder, total on every word and every list of bytes, rejecting by name (30_encoding.md R57), and after it the encoder (R61). -/

namespace Sys2Proof

/-- Why a word is Illegal (R58). -/
inductive Reject where
  /-- The bytes are not the four of one command word (R51). -/
  | wrongLength
  /-- A reserved bit is set: 31:15, 11 or 7. -/
  | reservedBits
  /-- The opcode is 0x0 or 0x7 to 0xF. -/
  | reservedOpcode
  /-- A register field the opcode does not use is not 0. -/
  | unusedField
deriving DecidableEq, Repr

/-- What the decoder answers: `Legal(op, rd, rs1, rs2)` or `Illegal` (R57). -/
inductive Decoded where
  | legal (i : Instr)
  | illegal (why : Reject)
deriving DecidableEq, Repr

/-- The command a legal word stands for. -/
def Decoded.toOption : Decoded → Option Instr
  | .legal i => some i
  | .illegal _ => none

/-- The field of `w` from bit `lo` up, `n` bits wide (R8). -/
def bitField (w : Word) (lo n : Nat) : BitVec n :=
  w.extractLsb' lo n

/-- A field's value at its place in a word, from bit `lo` up (R8, R61). -/
def placeField {n : Nat} (v : BitVec n) (lo : Nat) : Word :=
  v.setWidth 32 <<< lo

/-- A command word's fields (R52). -/
def fieldsOf (w : Word) : CommandFields :=
  { op := bitField w 0 4
    rd := bitField w 4 3
    reserved7 := bitField w 7 1
    rs1 := bitField w 8 3
    reserved11 := bitField w 11 1
    rs2 := bitField w 12 3
    reservedHigh := bitField w 15 17 }

/-- The command with a given opcode and register fields. -/
def instrOf (op : Opcode) (rd rs1 rs2 : RegIdx) : Instr :=
  match op with
  | .genp => .genp rd
  | .tot => .tot rd rs1 rs2
  | .sele => .sele rd rs1
  | .inv => .inv rd rs1 rs2
  | .gcd => .gcd rd rs1 rs2
  | .isprime => .isprime rd rs1

/-- The decoder of R57 on a word's fields: the reserved bits first, then the opcode, then the unused fields. -/
def decodeFields (f : CommandFields) : Decoded :=
  if f.reservedHigh ≠ 0 ∨ f.reserved11 ≠ 0 ∨ f.reserved7 ≠ 0 then .illegal .reservedBits
  else
    match Opcode.ofBits f.op with
    | none => .illegal .reservedOpcode
    | some .genp => if f.rs1 ≠ 0 ∨ f.rs2 ≠ 0 then .illegal .unusedField else .legal (instrOf .genp f.rd f.rs1 f.rs2)
    | some .sele => if f.rs2 ≠ 0 then .illegal .unusedField else .legal (instrOf .sele f.rd f.rs1 f.rs2)
    | some .isprime => if f.rs2 ≠ 0 then .illegal .unusedField else .legal (instrOf .isprime f.rd f.rs1 f.rs2)
    | some .tot => .legal (instrOf .tot f.rd f.rs1 f.rs2)
    | some .inv => .legal (instrOf .inv f.rd f.rs1 f.rs2)
    | some .gcd => .legal (instrOf .gcd f.rd f.rs1 f.rs2)

/-- The decoder of R57, total on every u32. -/
def decode (w : Word) : Decoded :=
  decodeFields (fieldsOf w)

/-- The word whose byte lanes, the lowest address first, are the four given: little-endian (20_memory.md R37). -/
def wordOfLanes (b0 b1 b2 b3 : Byte) : Word :=
  placeField b0 0 ||| placeField b1 8 ||| placeField b2 16 ||| placeField b3 24

/-- Byte lane j of a word, j = 0 at the lowest address: bits [8j+7 : 8j] (20_memory.md R37). -/
def byteLane (w : Word) (j : Nat) : Byte :=
  w.extractLsb' (8 * j) 8

/-- The four bytes of a word, the lowest address first (20_memory.md R37). -/
def lanesOfWord (w : Word) : List Byte :=
  [byteLane w 0, byteLane w 1, byteLane w 2, byteLane w 3]

/-- The decoder on bytes: one command is exactly four of them (R51). -/
def decodeBytes : List Byte → Decoded
  | [b0, b1, b2, b3] => decode (wordOfLanes b0 b1 b2 b3)
  | _ => .illegal .wrongLength

/-- The word that an opcode-table row's `nbits` bits `w` make: the bits above `nbits` are 0. -/
def tableWord (nbits w : Nat) : Word :=
  BitVec.ofNat 32 (w % 2 ^ nbits)

/-- The instruction the decoder reads from the bits of an opcode-table row, laid out as the bus carries them. -/
def decodeTableWord (nbits w : Nat) : Option Instr :=
  (decodeBytes (lanesOfWord (tableWord nbits w))).toOption

/-- The word with given fields: each at its bits of R52. -/
def packFields (f : CommandFields) : Word :=
  placeField f.op 0 ||| placeField f.rd 4 ||| placeField f.reserved7 7 ||| placeField f.rs1 8 ||| placeField f.reserved11 11 |||
    placeField f.rs2 12 ||| placeField f.reservedHigh 15

/-- The encoder: `OP | RD<<4 | RS1<<8 | RS2<<12`, unused fields 0 (R61). -/
def encode (i : Instr) : Word :=
  packFields i.fields

/-- A row of R56's table: a word encodes the row's command exactly when `w & mask = match`. -/
structure EncodingRow where
  op : Opcode
  matchBits : Word
  maskBits : Word
deriving DecidableEq, Repr

/-- The table of R56. -/
def encodingRows : List EncodingRow :=
  [ ⟨.genp, 0x00000001, 0xFFFFFF8F⟩
  , ⟨.tot, 0x00000002, 0xFFFF888F⟩
  , ⟨.sele, 0x00000003, 0xFFFFF88F⟩
  , ⟨.inv, 0x00000004, 0xFFFF888F⟩
  , ⟨.gcd, 0x00000005, 0xFFFF888F⟩
  , ⟨.isprime, 0x00000006, 0xFFFFF88F⟩ ]

/-- Whether a word matches a row (R56). -/
def EncodingRow.matches (r : EncodingRow) (w : Word) : Bool :=
  w &&& r.maskBits == r.matchBits

end Sys2Proof
end

