-- ==== Sys2Proof/Machine/State.lean ====
section
/-! DEFINITION. The machine's state as plain data (10_state.md), the reasons a step can stop, and the state after reset (10_state.md R30). -/

namespace Sys2Proof.Machine

/-- Why the machine stops with a fault. -/
inductive Fault where
  /-- Raised by the delivery of an entropy word (`takeTurn`) in a state with ent_pending = 1 in which no drawing command waits for it: R69's
  onWord has no arm there. No run reaches such a state (`State.Inv`). Safe: the machine stops where the spec gives no transition. -/
  | wordWithoutReader
deriving DecidableEq, Repr

/-- Why the machine refuses a turn. -/
inductive Refusal where
  /-- Raised by `exec` for an instruction that has no meaning yet. Safe. -/
  | notModelled (mnemonic : String)
  /-- Raised by a host access that the schedule places while reset is asserted (R122; 93_implementation_defined.md row 4: `refuse`). Safe. -/
  | accessDuringReset
deriving DecidableEq, Repr

/-- The completion codes of STATUS.CODE (10_state.md R19, 60_exceptions.md R104). -/
inductive Code where
  | ok
  | noInverse
  | domain
  | illegal
deriving DecidableEq, Repr

/-- Where a command in progress stands (10_state.md R24). -/
inductive Stage where
  /-- `Compute`: it needs no further word before the engine's next step. -/
  | compute
  /-- `AwaitDraw`: it has an outstanding entropy request. -/
  | awaitDraw
deriving DecidableEq, Repr

/-- The engine phase (10_state.md R24). -/
inductive Phase where
  | idle
  | busy (op : Opcode) (rd : RegIdx) (opA opB : Word) (stage : Stage)
deriving DecidableEq, Repr

/-- The extended-Euclid datapath registers (10_state.md R25). -/
structure EuclidRegs where
  a : Word
  b : Word
  q : Word
  x0 : Coef
  x1 : Coef
  y0 : Coef
  y1 : Coef
deriving DecidableEq, Repr

/-- The engine's internal working registers (10_state.md R25, R26). -/
structure Datapath where
  euclid : EuclidRegs
  /-- `cand`, the current candidate. -/
  cand : Half
  /-- `i`, the index of the 6k±1 wheel. -/
  wheel : Half
deriving DecidableEq, Repr

/-- A host read of `size` bytes at a window offset (R38, R40). -/
structure ReadAccess where
  off : BitVec 6
  size : Nat
deriving DecidableEq, Repr

/-- A host write of `size` bytes at a window offset, with its data and its byte strobes (R39, R40). Of a wider access only 32 bits of data are
kept, since the block takes none of them (R40). -/
structure WriteAccess where
  off : BitVec 6
  size : Nat
  data : Word
  strb : BitVec 4
deriving DecidableEq, Repr

/-- What the bus answers a host access (R38, R107). -/
inductive Response where
  /-- A read was served with this data. -/
  | data (v : Word)
  /-- A write was served; it may have been ignored or discarded (R39). -/
  | written
  /-- A bus error; a read's data is 0 (R107). -/
  | busError
deriving DecidableEq, Repr

/-- A turn of one agent: a row of the transition table of 40_command_lifecycle.md R68, or a change of the reset input's level (R122). -/
inductive Event where
  | hostRead (r : ReadAccess)
  | hostWrite (w : WriteAccess)
  /-- The engine's turn (`EngineStep`). -/
  | engine
  /-- The entropy source's turn, with the word it offers (`Deliver(w)`). -/
  | deliver (w : Half)
  /-- `Reset`: asserted and released between two transitions. -/
  | reset
  /-- Reset asserted and kept asserted. -/
  | holdReset
  /-- Reset released. -/
  | releaseReset
deriving DecidableEq, Repr

/-- The whole state: the tuple of 10_state.md R29, the datapath registers of R25 and R26, and the model's own view of the block's inputs and
outputs (`inputs`, `resp`, `resetHeld`). -/
structure State where
  /-- R0 to R7 (R15). -/
  regs : Vector Word 8
  /-- STATUS.BUSY (R19). -/
  busy : Bool
  /-- STATUS.DONE (R19). -/
  done : Bool
  /-- STATUS.CODE (R19, R20). -/
  code : Code
  /-- STATUS.OVR (R19, R108). -/
  ovr : Bool
  /-- DRAWCNT (R21). -/
  drawCnt : Word
  /-- The engine phase (R24). -/
  phase : Phase
  /-- ent_pending (R27). -/
  entPending : Bool
  /-- The datapath registers (R25, R26). -/
  datapath : Datapath
  /-- The turns to come, oldest first (DESIGN CHOICE, log 1). -/
  inputs : List Event
  /-- The bus response to the latest host access, if there was one (DESIGN CHOICE, log 5). -/
  resp : Option Response
  /-- Whether reset is asserted now (R122; DESIGN CHOICE, log 6). -/
  resetHeld : Bool
deriving DecidableEq, Repr

/-- The datapath right after reset. R30 leaves it unspecified: zeros are a DESIGN CHOICE, unsafe (log 7). -/
def Datapath.reset : Datapath :=
  { euclid := { a := 0, b := 0, q := 0, x0 := 0, x1 := 0, y0 := 0, y1 := 0 }, cand := 0, wheel := 0 }

/-- The machine right after reset (10_state.md R30, 70_reset_and_hazards.md R123). Nothing is scheduled, no access was answered and reset is
released (DESIGN CHOICE, logs 1, 5, 6). -/
def State.reset : State :=
  { regs := Vector.replicate 8 0
    busy := false
    done := false
    code := .ok
    ovr := false
    drawCnt := 0
    phase := .idle
    entPending := false
    datapath := Datapath.reset
    inputs := []
    resp := none
    resetHeld := false }

/-- The output done_o equals STATUS.DONE at all times (R28). -/
def State.doneO (s : State) : Bool :=
  s.done

end Sys2Proof.Machine
end

