-- ==== Sys2Proof/Machine/Flags.lean ====
section
/-! DEFINITION. The STATUS word and its fields, and the draw counter (10_state.md R19–R21, R23): the block has no other flags. -/

namespace Sys2Proof.Machine

/-- The two bits of STATUS.CODE (R19). -/
def Code.bits : Code → BitVec 2
  | .ok => 0b00
  | .noInverse => 0b01
  | .domain => 0b10
  | .illegal => 0b11

/-- STATUS as a host reads it: BUSY in bit 0, DONE in bit 1, CODE in bits 3:2, OVR in bit 4, zeros above (R19). -/
def statusWord (s : State) : Word :=
  placeField (BitVec.ofBool s.busy) 0 ||| placeField (BitVec.ofBool s.done) 1 ||| placeField s.code.bits 2 |||
    placeField (BitVec.ofBool s.ovr) 4

/-- A well-formed write to CMD or to Rk while BUSY = 1 sets OVR and does nothing else (R64, R108). -/
def overrun (s : State) : State :=
  { s with ovr := true }

/-- A write of STATUS: OVR <- OVR ∧ ¬v[4]; nothing else changes (R19, R39). -/
def writeStatus (s : State) (v : Word) : State :=
  { s with ovr := s.ovr && !v.getLsbD 4 }

/-- DRAWCNT's increment, which leaves 0xFFFFFFFF as it is (R21, R66). -/
def bumpDrawCnt (n : Word) : Word :=
  if n = 0xFFFFFFFF then 0xFFFFFFFF else n + 1

end Sys2Proof.Machine
end

