-- ==== Sys2Proof/Machine/Operands.lean ====
section
/-! DEFINITION. Reading and writing the operand registers, and the latched operands of a command (10_state.md R15–R17, 40_command_lifecycle.md R65).
MIE-1 has one operand form, the register (30_encoding.md R53, R54). -/

namespace Sys2Proof.Machine

/-- `x[k]`, a read of Rk (R15). No register is hard-wired (R17). -/
def readReg (s : State) (k : RegIdx) : Word :=
  s.regs[k.toNat]'k.isLt

/-- `x[k] <- v`, a write of Rk (R16). Every bit of Rk is writable (R17). -/
def writeReg (s : State) (k : RegIdx) (v : Word) : State :=
  { s with regs := s.regs.set k.toNat v k.isLt }

/-- The operand opA a command latches: x[RS1], which is x[0] for a command with no first source (R65). -/
def operandA (s : State) (i : Instr) : Word :=
  readReg s i.rs1

/-- The operand opB a command latches: x[RS2], which is x[0] for a command with no second source (R65). -/
def operandB (s : State) (i : Instr) : Word :=
  readReg s i.rs2

/-- `w[15:0]`: the 16-bit value of an operand whose domain check has passed (R82, R86). -/
def lowHalf (w : Word) : Half :=
  w.setWidth 16

/-- `zext_32`: a candidate widened to a register's width (R81, R92). -/
def widen (h : Half) : Word :=
  h.setWidth 32

end Sys2Proof.Machine
end

