-- ==== Sys2Proof/Machine/Ops.lean ====
section
/-! DEFINITION. The operations the commands share: acceptance, drawing, completion (which is also how every failure is reported, since the block
raises no traps: 60_exceptions.md R104, R112), and reset. -/

namespace Sys2Proof.Machine

/-- How a legal command completes: the argument of `complete` (40_command_lifecycle.md R67). ILLEGAL is never one (R67). -/
inductive Completion where
  /-- `complete(OK, v)`. -/
  | ok (v : Word)
  /-- `raise NoInverse()`. -/
  | noInverse
  /-- `raise Domain()`. -/
  | domain
deriving DecidableEq, Repr

/-- What ends a step of the engine: `complete` or `Draw16` (R68). -/
inductive Action where
  | complete (c : Completion)
  | draw
deriving DecidableEq, Repr

/-- What a command's algorithm leaves: the datapath registers, and how its step ends. -/
structure Outturn where
  datapath : Datapath
  action : Action
deriving DecidableEq, Repr

/-- The code a completion writes (R104). -/
def Completion.code : Completion → Code
  | .ok _ => .ok
  | .noInverse => .noInverse
  | .domain => .domain

/-- Acceptance of a legal word in an idle block: the operands are latched and BUSY is set, in one step; CODE keeps the previous command's code
(R63, R65, R20). -/
def accept (i : Instr) (s : State) : State :=
  { s with
    done := false
    drawCnt := 0
    busy := true
    phase := .busy i.opcode i.rd (operandA s i) (operandB s i) .compute }

/-- A host's submission of command `i`, the write of its word to CMD: discarded with OVR while BUSY = 1 (R64), else accepted (R63). No step of the
engine is part of it: a host access and an engine step are two steps (60_exceptions.md R111). -/
def issue (i : Instr) (s : State) : State :=
  if s.busy then overrun s else accept i s

/-- Acceptance of an illegal word in an idle block: it completes at once with ILLEGAL (R63, 60_exceptions.md R106). -/
def acceptIllegal (s : State) : State :=
  { s with done := true, drawCnt := 0, code := .illegal }

/-- The register write of a completion: x[rd] for OK, none otherwise (R67, R16). -/
def Completion.write (c : Completion) (rd : RegIdx) (s : State) : State :=
  match c with
  | .ok v => writeReg s rd v
  | .noInverse => s
  | .domain => s

/-- `complete(code)` and `complete(OK, v)`: one indivisible step (R67, R72). A failure changes no register (R112). -/
def complete (rd : RegIdx) (c : Completion) (s : State) : State :=
  { c.write rd s with code := c.code, done := true, busy := false, phase := .idle }

/-- The request half of `Draw16()`: the command waits for a word (R66, R27). -/
def requestDraw (op : Opcode) (rd : RegIdx) (opA opB : Word) (s : State) : State :=
  { s with entPending := true, phase := .busy op rd opA opB .awaitDraw }

/-- The delivery half of `Draw16()`: the request is answered and the word counted (R66, R21). -/
def countWord (s : State) : State :=
  { s with entPending := false, drawCnt := bumpDrawCnt s.drawCnt }

/-- The end of a step of the engine for the command in progress: it completes or asks for a word (R68). -/
def perform (op : Opcode) (rd : RegIdx) (opA opB : Word) (o : Outturn) (s : State) : State :=
  match o.action with
  | .complete c => complete rd c { s with datapath := o.datapath }
  | .draw => requestDraw op rd opA opB { s with datapath := o.datapath }

/-- Reset: every piece of the block's state goes to its reset value; a command in progress is abandoned and an outstanding request withdrawn
(70_reset_and_hazards.md R122–R125). What the agents do next is not the block's state, so the schedule stays. -/
def resetBlock (s : State) : State :=
  { State.reset with inputs := s.inputs }

end Sys2Proof.Machine
end

