-- ==== Sys2Proof/Machine/Prime.lean ====
section
/-! DEFINITION. The family of the primality test: the sub-blocks primality_test_trial_division and random_prime_candidate_generator, for the commands
GENP and ISPRIME (41_prime_generation.md). -/

namespace Sys2Proof.Machine

/-- The 6k±1 wheel of R77 from index `i`: the index it stops at, and whether no division succeeded. `i * i` is computed exactly. The first
argument bounds the evaluations of the loop's test; 43 are enough for a 16-bit n (70_reset_and_hazards.md R136, log 13). -/
def wheelLoop : Nat → Half → Half → Half × Bool
  | 0, _, i => (i, true)
  | fuel + 1, n, i =>
    if i.toNat * i.toNat ≤ n.toNat then
      if n.toNat % i.toNat = 0 ∨ n.toNat % (i.toNat + 2) = 0 then (i, false)
      else wheelLoop fuel n (i + 6)
    else (i, true)

/-- Steps 1 to 3 of R77, which decide without the wheel: the verdict, or none if the wheel must turn. Step 3 rejects on divisibility by 2 OR by 3
(R78, C2). -/
def quickVerdict (n : Half) : Option Bool :=
  if n.toNat ≤ 1 then some false
  else if n.toNat ≤ 3 then some true
  else if n.toNat % 2 = 0 ∨ n.toNat % 3 = 0 then some false
  else none

/-- `IsPrime16(n)` (R77). -/
def isPrime16 (n : Half) : Bool :=
  match quickVerdict n with
  | some v => v
  | none => (wheelLoop 43 n 5).2

/-- The datapath registers `cand` and `i` after a test of n (10_state.md R26). Where steps 1 to 3 decide, `i` is not written (DESIGN CHOICE, log 16). -/
def testPrime (n : Half) (dp : Datapath) : Datapath :=
  match quickVerdict n with
  | some _ => { dp with cand := n }
  | none => { dp with cand := n, wheel := (wheelLoop 43 n 5).1 }

/-- `GENP_exec` up to its first draw (R80, R81). -/
def genpStart (dp : Datapath) : Outturn :=
  { datapath := dp, action := .draw }

/-- `onWord(GENP, …, w)`: the first prime word is the result; any other word is rejected and a fresh one drawn (R69, R80). -/
def genpOnWord (w : Half) (dp : Datapath) : Outturn :=
  { datapath := testPrime w dp
    action := if isPrime16 w then .complete (.ok (widen w)) else .draw }

/-- `ISPRIME_exec(n)` (R82). -/
def isprimeStart (n : Word) (dp : Datapath) : Outturn :=
  if n > Config.maxHalf then { datapath := dp, action := .complete .domain }
  else
    { datapath := testPrime (lowHalf n) dp
      action := .complete (.ok (if isPrime16 (lowHalf n) then 1 else 0)) }

end Sys2Proof.Machine
end

