-- ==== Sys2Proof/Machine/Exponent.lean ====
section
/-! DEFINITION. The family of the Euclidean gcd and the public exponent, for the commands SELE and GCD (43_exponent_selection.md). -/

namespace Sys2Proof.Machine

/-- The Euclidean loop of R88 on the registers a and b. The first argument bounds its iterations: 46 are the most for u32 operands
(70_reset_and_hazards.md R136), and 64 are enough by halving (log 13). -/
def gcdLoop : Nat → Word → Word → Word × Word
  | 0, a, b => (a, b)
  | fuel + 1, a, b => if b = 0 then (a, b) else gcdLoop fuel b (a % b)

/-- `Gcd(a, b)` (R88). -/
def gcd (a b : Word) : Word :=
  (gcdLoop 64 a b).1

/-- The datapath registers a and b after `Gcd(a, b)`; the gcd uses no others (10_state.md R25). -/
def runGcd (a b : Word) (dp : Datapath) : Datapath :=
  { dp with euclid := { dp.euclid with a := (gcdLoop 64 a b).1, b := (gcdLoop 64 a b).2 } }

/-- `GCD_exec(a, b)` (R95). -/
def gcdStart (a b : Word) (dp : Datapath) : Outturn :=
  { datapath := runGcd a b dp, action := .complete (.ok (gcd a b)) }

/-- `SELE_exec(φ)` up to its first draw: the unchecked fast path, then DOMAIN for φ ≤ 2, then the slow path (R89, R91, R92, C3, C4). -/
def seleStart (phi : Word) (dp : Datapath) : Outturn :=
  { datapath := dp
    action :=
      if phi > Config.fastThreshold then .complete (.ok Config.eFixed)
      else if phi ≤ 2 then .complete .domain
      else .draw }

/-- `onWord(SELE, φ, w)`: a prime c < φ with gcd(c, φ) = 1 is the result; any other word is rejected and a fresh one drawn (R69, R90, C1).
That the gcd is not run, and a and b are not written, where the word is no prime or c ≥ φ, is a DESIGN CHOICE (log 21): R69 and R90 do not say whether
`and` evaluates its second operand there. The result is the same either way. -/
def seleOnWord (phi : Word) (w : Half) (dp : Datapath) : Outturn :=
  if isPrime16 w && widen w < phi then
    { datapath := runGcd (widen w) phi (testPrime w dp)
      action := if gcd (widen w) phi = 1 then .complete (.ok (widen w)) else .draw }
  else { datapath := testPrime w dp, action := .draw }

end Sys2Proof.Machine
end

