-- ==== Sys2Proof/Machine/Inverse.lean ====
section
/-! DEFINITION. The family of the modular inverse, for the command INV (44_modular_inverse.md). -/

namespace Sys2Proof.Machine

/-- The registers before the first iteration of R96. The quotient register is not written until then. -/
def EuclidRegs.load (r : EuclidRegs) (e phi : Word) : EuclidRegs :=
  { r with a := e, b := phi, x0 := 1, x1 := 0, y0 := 0, y1 := 1 }

/-- One iteration of R96 on the registers of 10_state.md R25, every assignment simultaneous: a, b and q are u32, the coefficients s64. -/
def EuclidRegs.iterate (r : EuclidRegs) : EuclidRegs :=
  let q := r.a / r.b
  { a := r.b
    b := r.a - q * r.b
    q := q
    x0 := r.x1
    x1 := r.x0 - q.setWidth 64 * r.x1
    y0 := r.y1
    y1 := r.y0 - q.setWidth 64 * r.y1 }

/-- The loop of R96, until the remainder is 0. The first argument bounds its iterations as in `gcdLoop` (log 13). -/
def euclidLoop : Nat → EuclidRegs → EuclidRegs
  | 0, r => r
  | fuel + 1, r => if r.b = 0 then r else euclidLoop fuel r.iterate

/-- `ExtEuclid(e, φ)`: the registers after the loop; a is the gcd and x0 the coefficient of e (R96). -/
def extEuclid (e phi : Word) (r : EuclidRegs) : EuclidRegs :=
  euclidLoop 64 (r.load e phi)

/-- The normalization of R98 in the signed 64-bit representation, with the C-like remainder: ((x rem φ) + φ) rem φ, then cast back to u32. -/
def normalize (x : Coef) (phi : Word) : Word :=
  ((x.srem (phi.setWidth 64) + phi.setWidth 64).srem (phi.setWidth 64)).setWidth 32

/-- `INV_exec(e, φ)`: NO_INVERSE for φ = 0 without running the loop (R99), NO_INVERSE if the gcd is not 1 (R97), else d (R98, R101). -/
def invStart (e phi : Word) (dp : Datapath) : Outturn :=
  if phi = 0 then { datapath := dp, action := .complete .noInverse }
  else
    let r := extEuclid e phi dp.euclid
    { datapath := { dp with euclid := r }
      action := if r.a = 1 then .complete (.ok (normalize r.x0 phi)) else .complete .noInverse }

end Sys2Proof.Machine
end

