-- ==== Sys2Proof/Machine/Totient.lean ====
section
/-! DEFINITION. The family of the totient multiplier, for the command TOT (42_totient.md). -/

namespace Sys2Proof.Machine

/-- `Totient(p, q)` = (p − 1)(q − 1), for p and q from 1 to 65535, in 32 bits (R85). No result wraps (R87). -/
def totient (p q : Half) : Word :=
  (widen p - 1) * (widen q - 1)

/-- Whether an operand of TOT lies in its domain, 1 to 0xFFFF (R86, R105). -/
def inTotDomain (p : Word) : Bool :=
  p != 0 && p ≤ Config.maxHalf

/-- `TOT_exec(p, q)` (R86). -/
def totStart (p q : Word) (dp : Datapath) : Outturn :=
  { datapath := dp
    action :=
      if inTotDomain p && inTotDomain q then .complete (.ok (totient (lowHalf p) (lowHalf q)))
      else .complete .domain }

end Sys2Proof.Machine
end

