-- ==== Sys2Proof/Machine/Engine.lean ====
section
/-! DEFINITION. The engine's dispatch, its step, and the delivery of a word (40_command_lifecycle.md R68, R69). -/

namespace Sys2Proof.Machine

/-- `exec(op, opA, opB)` of R69: the family rule of the latched opcode. -/
def engineExec (op : Opcode) (opA opB : Word) (dp : Datapath) : Outturn :=
  match op with
  | .genp => genpStart dp
  | .tot => totStart opA opB dp
  | .sele => seleStart opA dp
  | .inv => invStart opA opB dp
  | .gcd => gcdStart opA opB dp
  | .isprime => isprimeStart opA dp

/-- `onWord(op, opA, w)` of R69: the continuation of the two drawing commands; the others have none. -/
def onWord (op : Opcode) (opA : Word) (w : Half) (dp : Datapath) : Option Outturn :=
  match op with
  | .genp => some (genpOnWord w dp)
  | .sele => some (seleOnWord opA w dp)
  | .tot => none
  | .inv => none
  | .gcd => none
  | .isprime => none

/-- The engine's turn: `EngineStep` where the phase is Busy(…, Compute), and nothing where it is not enabled (R68, R121). -/
def engineStep (s : State) : State :=
  match s.phase with
  | .busy op rd opA opB .compute => perform op rd opA opB (engineExec op opA opB s.datapath) s
  | .busy _ _ _ _ .awaitDraw => s
  | .idle => s

/-- `Deliver(w)` to a waiting command: the word is counted and judged (R66, R68, R69). None where no drawing command waits. -/
def deliverWord (w : Half) (s : State) : Option State :=
  match s.phase with
  | .busy op rd opA opB .awaitDraw =>
    match onWord op opA w s.datapath with
    | some o => some (perform op rd opA opB o (countWord s))
    | none => none
  | .busy _ _ _ _ .compute => none
  | .idle => none

end Sys2Proof.Machine
end

