-- ==== Sys2Proof/Machine/Commands.lean ====
section
/-! DEFINITION. The meaning of each command as an instruction: what the host's write of its word to CMD does, which is one step (40_command_lifecycle.md
R63, R64, R68; log 2). What an accepted command computes follows in steps of its own: its `EngineStep` is its arm of `engineExec`, and its deliveries are
its arm of `onWord` (R69). No meaning stops. -/

namespace Sys2Proof.Machine

/-- GENP (R81): accepted, its engine step is `genpStart` and each word it draws is judged by `genpOnWord`. -/
def execGenp (rd : RegIdx) (s : State) : Host.Outcome State Fault Refusal :=
  .next (issue (.genp rd) s)

/-- TOT (R86): accepted with p and q latched, its engine step is `totStart`. -/
def execTot (rd rs1 rs2 : RegIdx) (s : State) : Host.Outcome State Fault Refusal :=
  .next (issue (.tot rd rs1 rs2) s)

/-- SELE (R92): accepted with φ latched, its engine step is `seleStart` and each word it draws is judged by `seleOnWord`. -/
def execSele (rd rs1 : RegIdx) (s : State) : Host.Outcome State Fault Refusal :=
  .next (issue (.sele rd rs1) s)

/-- INV (R101): accepted with e and φ latched, its engine step is `invStart`. -/
def execInv (rd rs1 rs2 : RegIdx) (s : State) : Host.Outcome State Fault Refusal :=
  .next (issue (.inv rd rs1 rs2) s)

/-- GCD (R95): accepted with both operands latched, its engine step is `gcdStart`. -/
def execGcd (rd rs1 rs2 : RegIdx) (s : State) : Host.Outcome State Fault Refusal :=
  .next (issue (.gcd rd rs1 rs2) s)

/-- ISPRIME (R82): accepted with n latched, its engine step is `isprimeStart`. -/
def execIsprime (rd rs1 : RegIdx) (s : State) : Host.Outcome State Fault Refusal :=
  .next (issue (.isprime rd rs1) s)

end Sys2Proof.Machine
end

