-- ==== Sys2Proof/Machine/Dispatch.lean ====
section
/-! DEFINITION. The dispatch: one arm per command, each one call of its meaning. -/

namespace Sys2Proof.Machine

def exec (i : Instr) (s : State) : Host.Outcome State Fault Refusal :=
  match i with
  | .genp rd => Sys2Proof.Machine.execGenp rd s
  | .tot rd rs1 rs2 => Sys2Proof.Machine.execTot rd rs1 rs2 s
  | .sele rd rs1 => Sys2Proof.Machine.execSele rd rs1 s
  | .inv rd rs1 rs2 => Sys2Proof.Machine.execInv rd rs1 rs2 s
  | .gcd rd rs1 rs2 => Sys2Proof.Machine.execGcd rd rs1 rs2 s
  | .isprime rd rs1 => Sys2Proof.Machine.execIsprime rd rs1 s

end Sys2Proof.Machine
end

