-- ==== Sys2Proof/Machine/Bus.lean ====
section
/-! DEFINITION. The register window and the turns of every agent (20_memory.md, 40_command_lifecycle.md R68). -/

namespace Sys2Proof.Machine

/-- What a window offset selects (R36). -/
inductive Target where
  | cmd
  | status
  | drawCnt
  | reserved
  | reg (k : RegIdx)
deriving DecidableEq, Repr

/-- The register map of R36 at word granularity: the register whose four bytes hold the offset. Bits [1:0] are the byte lane (R37). -/
def targetOf (off : BitVec 6) : Target :=
  let word := off.toNat / 4
  if word = 0 then .cmd
  else if word = 1 then .status
  else if word = 2 then .drawCnt
  else if word < 8 then .reserved
  else .reg (BitVec.ofNat 3 (word - 8))

/-- The value a host reads of a register: CMD and the reserved offsets give 0 (R38, R18, R41). -/
def readTarget (s : State) : Target → Word
  | .cmd => 0
  | .status => statusWord s
  | .drawCnt => s.drawCnt
  | .reserved => 0
  | .reg k => readReg s k

/-- Byte lane off[1:0] of the register at `off`: the byte at address `MIE_BASE + off` (R37). -/
def windowByte (s : State) (off : BitVec 6) : Byte :=
  byteLane (readTarget s (targetOf off)) (off.toNat % 4)

/-- An offset that is a multiple of 4 (R40). -/
def aligned (off : BitVec 6) : Bool :=
  off.toNat % 4 == 0

/-- The block serves 32-bit reads at aligned offsets (R40). -/
def ReadAccess.wellFormed (r : ReadAccess) : Bool :=
  r.size == 4 && aligned r.off

/-- The block serves 32-bit writes at aligned offsets with all four strobes set (R40). -/
def WriteAccess.wellFormed (a : WriteAccess) : Bool :=
  a.size == 4 && aligned a.off && a.strb == 0b1111

/-- The data a response carries to a read: 0 with an error (R40, R107). -/
def Response.readData : Response → Word
  | .data v => v
  | .written => 0
  | .busError => 0

/-- `raise BusError(offset)`: no effect on any state; only the bus master learns of it (R107). -/
def busError (s : State) : State :=
  { s with resp := some .busError }

/-- A host read: it never changes the block's state (R38, R42). The width and alignment check comes first (R40, R111). -/
def hostRead (r : ReadAccess) (s : State) : State :=
  if r.wellFormed then { s with resp := some (.data (readTarget s (targetOf r.off))) } else busError s

/-- A well-formed write of word `v` to CMD: a legal word is issued; an illegal one is discarded while BUSY = 1 and else completes at once (R39, R63,
R64). -/
def writeCmd (v : Word) (s : State) : Host.Outcome State Fault Refusal :=
  match decode v with
  | .legal i => exec i s
  | .illegal _ => .next (if s.busy then overrun s else acceptIllegal s)

/-- A well-formed write of word `v` to Rk: discarded with OVR while BUSY = 1 (R39, R130). -/
def writeOperand (k : RegIdx) (v : Word) (s : State) : State :=
  if s.busy then overrun s else writeReg s k v

/-- The table of R39. -/
def writeTarget (t : Target) (v : Word) (s : State) : Host.Outcome State Fault Refusal :=
  match t with
  | .cmd => writeCmd v s
  | .status => .next (writeStatus s v)
  | .drawCnt => .next s
  | .reserved => .next s
  | .reg k => .next (writeOperand k v s)

/-- A host write: the width, alignment and strobe check comes first, and only a well-formed access meets BUSY (R40, R111). -/
def hostWrite (a : WriteAccess) (s : State) : Host.Outcome State Fault Refusal :=
  if a.wellFormed then writeTarget (targetOf a.off) a.data { s with resp := some .written } else .next (busError s)

/-- The entropy source's turn: a word answers the outstanding request; with none outstanding there is no `Deliver` step and the word is discarded
(R68, R125). -/
def entropyTurn (w : Half) (s : State) : Host.Outcome State Fault Refusal :=
  if s.entPending then
    match deliverWord w s with
    | some t => .next t
    | none => .fault .wordWithoutReader
  else .next s

/-- A turn of one agent (R68). While reset is asserted the block serves no host access (R122; 93_implementation_defined.md row 4). -/
def takeTurn (e : Event) (s : State) : Host.Outcome State Fault Refusal :=
  match e with
  | .hostRead r => if s.resetHeld then .refused .accessDuringReset else .next (hostRead r s)
  | .hostWrite a => if s.resetHeld then .refused .accessDuringReset else hostWrite a s
  | .engine => .next (engineStep s)
  | .deliver w => entropyTurn w s
  | .reset => .next (resetBlock s)
  | .holdReset => .next { resetBlock s with resetHeld := true }
  | .releaseReset => .next { s with resetHeld := false }

/-- With no turn scheduled an enabled engine step is taken (weak fairness, R71); an idle or waiting block takes none (R121). DESIGN CHOICE (log 3). -/
def quietTurn (s : State) : Host.Outcome State Fault Refusal :=
  .next (engineStep s)

/-- The access of a host that writes word `v` to CMD (R62, `issue`). -/
def cmdWrite (v : Word) : WriteAccess :=
  { off := 0, size := 4, data := v, strb := 0b1111 }

/-- The state in which the host's next turn is a write of word `v` to CMD, with reset released (log 9). -/
def scheduleCommand (v : Word) (s : State) : State :=
  { s with inputs := .hostWrite (cmdWrite v) :: s.inputs, resetHeld := false }

/-- The window offset of a platform address, if the address lies in the window at `base` (R35). -/
def windowOffset (base addr : Nat) : Option (BitVec 6) :=
  if base ≤ addr ∧ addr < base + Config.windowBytes then some (BitVec.ofNat 6 (addr - base)) else none

/-- The turn in which a host reads at a platform address: none where the address does not reach the block (R35, R38). -/
def routeRead (addr size : Nat) : Option Event :=
  (windowOffset Config.mieBase addr).map fun off => .hostRead { off := off, size := size }

/-- The turn in which a host writes at a platform address: none where the address does not reach the block (R35, R39). -/
def routeWrite (addr size : Nat) (v : Word) (strb : BitVec 4) : Option Event :=
  (windowOffset Config.mieBase addr).map fun off => .hostWrite { off := off, size := size, data := v, strb := strb }

end Sys2Proof.Machine
end

