-- ==== Sys2Proof/Machine/Step.lean ====
section
/-! DEFINITION. One step of the machine: the oldest scheduled turn is taken; and how an instruction is placed where the next step runs it. -/

namespace Sys2Proof.Machine

/-- One step: the agent whose turn it is makes its transition (R68). The block fetches nothing (R22, R49): a command comes with the host's write
to CMD. -/
def step (s : State) : Host.Outcome State Fault Refusal :=
  match s.inputs with
  | [] => quietTurn s
  | e :: rest => takeTurn e { s with inputs := rest }

/-- The state whose next step is the host's write of the given word to CMD (log 9). -/
def State.withFetchWord (s : State) (nbits w : Nat) : State :=
  scheduleCommand (tableWord nbits w) s

end Sys2Proof.Machine
end

