-- ==== Sys2Proof/Machine/HostProgram.lean ====
section
/-! DEFINITION. The host's side of the window: the pseudo-instructions of 30_encoding.md R62 as bus accesses, a host that runs them on the block, and the
assembler syntax of R61. No transition of the block uses them. -/

namespace Sys2Proof.Machine

/-- The read of the register at a window offset. -/
def wordRead (off : BitVec 6) : Event :=
  .hostRead { off := off, size := 4 }

/-- The write of the register at a window offset. -/
def wordWrite (off : BitVec 6) (v : Word) : Event :=
  .hostWrite { off := off, size := 4, data := v, strb := 0b1111 }

/-- The window offset of Rk: 0x20 + 4·k (R36). -/
def regOffset (k : RegIdx) : BitVec 6 :=
  0x20 + 4 * k.setWidth 6

/-- The host pseudo-instructions of R62. -/
inductive HostOp where
  | li (k : RegIdx) (imm : Word)
  | issue (i : Instr)
  | wait
  | exec (i : Instr)
  | ld (k : RegIdx)
  | ldst
  | ldcnt
  | clrovr
deriving DecidableEq, Repr

/-- What a pseudo-instruction makes the host do: one access, or the loop of reads of STATUS that `wait` is. -/
inductive HostAct where
  | access (e : Event)
  | pollUntilDone
deriving DecidableEq, Repr

/-- The expansion of R62. -/
def HostOp.expand : HostOp → List HostAct
  | .li k imm => [.access (wordWrite (regOffset k) imm)]
  | .issue i => [.access (wordWrite 0x00 (encode i))]
  | .wait => [.pollUntilDone]
  | .exec i => [.access (wordWrite 0x00 (encode i)), .pollUntilDone]
  | .ld k => [.access (wordRead (regOffset k))]
  | .ldst => [.access (wordRead 0x04)]
  | .ldcnt => [.access (wordRead 0x08)]
  | .clrovr => [.access (wordWrite 0x04 0x00000010)]

/-- The access `wait` repeats (R62). -/
def pollAccess : Event :=
  wordRead 0x04

/-- Whether `wait` ends on a response: it loops while s[1] = 0 (R62). -/
def pollEnds : Response → Bool
  | .data v => v.getLsbD 1
  | .written => false
  | .busError => false

/-- The access the host makes for an act in its turn. -/
def HostAct.event : HostAct → Event
  | .access e => e
  | .pollUntilDone => pollAccess

/-- Whether an act is over once its access is answered: a plain access always, the loop of `wait` only on s[1] = 1 (R62). -/
def HostAct.isOver (act : HostAct) (resp : Option Response) : Bool :=
  match act with
  | .access _ => true
  | .pollUntilDone => resp.any pollEnds

/-- A host that runs a program of acts, oldest first, beside the block (log 22). The program is the host's and no state of the block. -/
structure Session where
  program : List HostAct
  block : State
deriving DecidableEq, Repr

/-- The session in which a host is about to run a list of pseudo-instructions (R62). -/
def Session.load (ops : List HostOp) (s : State) : Session :=
  { program := ops.flatMap HostOp.expand, block := s }

/-- The host's turn: it makes the access of its oldest act, as a `HostRead` or `HostWrite` of 40_command_lifecycle.md R68, and goes on to the next act if
that one is over. Otherwise it stands at the same act, which is the `goto loop` of `wait` (R62). A host with no act left does nothing. -/
def Session.hostTurn (h : Session) : Host.Outcome Session Fault Refusal :=
  match h.program with
  | [] => .next h
  | act :: rest =>
    match takeTurn act.event h.block with
    | .next t => .next { program := if act.isOver t.resp then rest else act :: rest, block := t }
    | .fault f => .fault f
    | .refused r => .refused r

/-- The turn of another agent: the block takes the oldest turn of its schedule. -/
def Session.blockTurn (h : Session) : Host.Outcome Session Fault Refusal :=
  match step h.block with
  | .next t => .next { h with block := t }
  | .fault f => .fault f
  | .refused r => .refused r

/-- Who moves next in a session: the host with its program, or the block with its schedule of the other agents' turns. -/
inductive Mover where
  | host
  | block
deriving DecidableEq, Repr

/-- A session over an interleaving of its two sides (20_memory.md R46, log 22). -/
def Session.run : List Mover → Session → Host.Outcome Session Fault Refusal
  | [], h => .next h
  | m :: rest, h =>
    match (match m with | .host => h.hostTurn | .block => h.blockTurn) with
    | .next k => k.run rest
    | .fault f => .fault f
    | .refused r => .refused r

/-- A blank of the assembler (log 19). -/
def isBlank (c : Char) : Bool :=
  c == ' ' || c == '\t'

/-- A text without the blanks at its two ends. -/
def trimBlanks (t : List Char) : List Char :=
  ((t.dropWhile isBlank).reverse.dropWhile isBlank).reverse

/-- The pieces of a text between its commas. -/
def splitCommas : List Char → List (List Char)
  | [] => [[]]
  | c :: t =>
    if c == ',' then [] :: splitCommas t
    else
      match splitCommas t with
      | [] => [[c]]
      | piece :: more => (c :: piece) :: more

/-- A register name `r0` to `r7`, in lower case (R61). -/
def parseReg : List Char → Option RegIdx
  | ['r', '0'] => some 0
  | ['r', '1'] => some 1
  | ['r', '2'] => some 2
  | ['r', '3'] => some 3
  | ['r', '4'] => some 4
  | ['r', '5'] => some 5
  | ['r', '6'] => some 6
  | ['r', '7'] => some 7
  | _ => none

/-- The command of a mnemonic, in lower case, and its register operands in the order of R55 (R61). -/
def commandOf (mnemonic : List Char) (operands : List RegIdx) : Option Instr :=
  match mnemonic, operands with
  | ['g', 'e', 'n', 'p'], [rd] => some (.genp rd)
  | ['t', 'o', 't'], [rd, rs1, rs2] => some (.tot rd rs1 rs2)
  | ['s', 'e', 'l', 'e'], [rd, rs1] => some (.sele rd rs1)
  | ['i', 'n', 'v'], [rd, rs1, rs2] => some (.inv rd rs1 rs2)
  | ['g', 'c', 'd'], [rd, rs1, rs2] => some (.gcd rd rs1 rs2)
  | ['i', 's', 'p', 'r', 'i', 'm', 'e'], [rd, rs1] => some (.isprime rd rs1)
  | _, _ => none

/-- One line of assembler text: case does not matter, and the text from `;` on is a comment (R61). -/
def assembleLine (line : List Char) : Option Instr :=
  let text := trimBlanks ((line.takeWhile fun c => c != ';').map Char.toLower)
  let mnemonic := text.takeWhile fun c => !isBlank c
  match ((splitCommas (text.dropWhile fun c => !isBlank c)).map fun piece => parseReg (trimBlanks piece)).mapM id with
  | some operands => commandOf mnemonic operands
  | none => none

end Sys2Proof.Machine
end

