-- ==== Sys2Proof/Safety.lean ====
section
/-! DEFINITION. The invariants of the block (10_state.md R31 and what follows from 40 and 60 beside it), and what a safe step is. -/

namespace Sys2Proof.Machine

/-- Whether the phase is Busy(…). -/
def Phase.isBusy : Phase → Bool
  | .idle => false
  | .busy _ _ _ _ _ => true

/-- Whether the phase is Busy(…, AwaitDraw). -/
def Phase.isWaiting : Phase → Bool
  | .busy _ _ _ _ .awaitDraw => true
  | .busy _ _ _ _ .compute => false
  | .idle => false

/-- Whether a command can wait for a word: GENP always, SELE on its slow path, 3 ≤ φ ≤ 65537 (R69, R90, R134). -/
def mayDraw (op : Opcode) (opA : Word) : Bool :=
  match op with
  | .genp => true
  | .sele => 3 ≤ opA && opA ≤ Config.fastThreshold
  | .tot => false
  | .inv => false
  | .gcd => false
  | .isprime => false

/-- What the command in progress promises: before its first engine step it has drawn nothing (R63), and only a drawing command waits (R69, R70). -/
def Phase.sound (drawCnt : Word) : Phase → Prop
  | .idle => True
  | .busy _ _ _ _ .compute => drawCnt = 0
  | .busy op _ opA _ .awaitDraw => mayDraw op opA = true

/-- The invariants every step preserves. The first three are R31's; the fourth says who may wait (R69); the fifth is R104's last sentence: a code
other than OK comes with no draws; the sixth says that an asserted reset keeps the block idle with nothing done (R122, R123). -/
structure State.Inv (s : State) : Prop where
  /-- BUSY = 1 ⇔ phase is Busy(…). -/
  busy_iff : s.busy = s.phase.isBusy
  /-- BUSY = 1 ⇒ DONE = 0. -/
  busy_not_done : s.busy = true → s.done = false
  /-- ent_pending = 1 exactly while the phase is Busy(…, AwaitDraw) (R27). -/
  pending_iff : s.entPending = s.phase.isWaiting
  phase_sound : s.phase.sound s.drawCnt
  failed_drew_nothing : s.done = true → s.code ≠ .ok → s.drawCnt = 0
  held_idle : s.resetHeld = true → s.busy = false ∧ s.done = false

/-- A safe step is one that goes on: neither a fault nor a refusal. -/
def State.stepsSafely (s : State) : Prop :=
  ∃ t, step s = .next t

/-- The machine after n steps, or where it stops. -/
def runSteps : Nat → State → Host.Outcome State Fault Refusal
  | 0, s => .next s
  | n + 1, s =>
    match step s with
    | .next t => runSteps n t
    | .fault f => .fault f
    | .refused r => .refused r

/-- The schedule after the engine's turn, if the engine moves next. The end of the schedule is the engine's turn too (R71; log 3). -/
def engineTurn : List Event → Option (List Event)
  | [] => some []
  | .engine :: rest => some rest
  | .deliver _ :: _ => none
  | .hostRead _ :: _ => none
  | .hostWrite _ :: _ => none
  | .reset :: _ => none
  | .holdReset :: _ => none
  | .releaseReset :: _ => none

/-- The next turn is one in which a command in progress can move: the engine's, or a word offered by the entropy source (R68). -/
def CommandTurn (l rest : List Event) : Prop :=
  engineTurn l = some rest ∨ ∃ w, l = .deliver w :: rest

/-- Turns that leave an accepted command where it is until the engine moves: a host that reads (R73), and words nobody asked for (R125). -/
def PollsOnly (l : List Event) : Prop :=
  ∀ e ∈ l, (∃ r, e = .hostRead r) ∨ ∃ w, e = .deliver w

/-- Turns in which a waiting command rejects every word: the engine's, a host that reads, and words that satisfy `P`. -/
def OffersOnly (P : Half → Prop) (l : List Event) : Prop :=
  ∀ e ∈ l, e = .engine ∨ (∃ r, e = .hostRead r) ∨ ∃ c, e = .deliver c ∧ P c

/-- The block is ready for a command: idle, in a state of the invariants, with reset released; and after the acceptance the schedule has the turns
`polls`, then the engine's turn, and then `rest`. -/
structure ReadyFor (s : State) (polls rest : List Event) : Prop where
  inv : s.Inv
  idle : s.busy = false
  released : s.resetHeld = false
  pollsOnly : PollsOnly polls
  schedule : ∃ tail, s.inputs = polls ++ tail ∧ engineTurn tail = some rest

/-- Whether a turn offers a word. -/
def Event.isWord : Event → Bool
  | .deliver _ => true
  | _ => false

/-- How many words a stretch of the schedule offers. -/
def wordCount (l : List Event) : Nat :=
  (l.filter Event.isWord).length

/-- DRAWCNT after n words of one command: it saturates (R21). -/
def countOf (n : Nat) : Word :=
  BitVec.ofNat 32 (min n 0xFFFFFFFF)

/-- The state `t` is `s` with one command ended: x[rd] holds the result if the completion is OK and every other register is as before, and the
status fields, DRAWCNT and the phase are those of a completion with the given number of draws (R67). OVR and the reset input are as before. The datapath
registers are left open. -/
structure EndsWith (s t : State) (rd : RegIdx) (c : Completion) (draws : Word) : Prop where
  result : ∀ v, c = .ok v → readReg t rd = v
  failed : (∀ v, c ≠ .ok v) → readReg t rd = readReg s rd
  others : ∀ k, k ≠ rd → readReg t k = readReg s k
  code : t.code = c.code
  done : t.done = true
  busy : t.busy = false
  phase : t.phase = .idle
  pending : t.entPending = false
  draws : t.drawCnt = draws
  ovr : t.ovr = s.ovr
  held : t.resetHeld = s.resetHeld

/-- What turns other than the command's own leave: the schedule that is left, and the bus response unless a host has read. -/
structure Passed (s t : State) (turns rest : List Event) : Prop where
  schedule : t.inputs = rest
  resp : (∀ r, .hostRead r ∉ turns) → t.resp = s.resp

/-- The state `t` is `s` with command `i` accepted and waiting for a word (R24, R27, R66): nothing else of the block has changed. -/
structure WaitsIn (s t : State) (i : Instr) (draws : Word) : Prop where
  phase : t.phase = .busy i.opcode i.rd (readReg s i.rs1) (readReg s i.rs2) .awaitDraw
  pending : t.entPending = true
  busy : t.busy = true
  done : t.done = false
  draws : t.drawCnt = draws
  regs : t.regs = s.regs
  code : t.code = s.code
  ovr : t.ovr = s.ovr
  held : t.resetHeld = s.resetHeld

/-- Everything of the block's own state but its datapath registers: the tuple of R29. -/
def SameTuple (s t : State) : Prop :=
  t.regs = s.regs ∧ t.busy = s.busy ∧ t.done = s.done ∧ t.code = s.code ∧ t.ovr = s.ovr ∧ t.drawCnt = s.drawCnt ∧ t.phase = s.phase ∧
    t.entPending = s.entPending

end Sys2Proof.Machine
end

