-- ==== Sys2Proof/Certificates/Slice0/Obligations.lean ====
section
/-! DEFINITION. The statements about the model for the provers, and the predicates they are written with. -/

namespace Sys2Proof.Machine

/-- The engine rejects a word for GENP: it is not prime (R80). -/
def rejectedByGenp (c : Half) : Prop :=
  ¬ c.toNat.Prime

/-- A word SELE accepts for φ: a prime c < φ with gcd(c, φ) = 1 (R90). -/
def acceptedBySele (phi : Word) (c : Half) : Prop :=
  c.toNat.Prime ∧ c.toNat < phi.toNat ∧ Nat.gcd c.toNat phi.toNat = 1

/-- The registers of R96 as unbounded numbers. -/
structure ExactRegs where
  a : Nat
  b : Nat
  x0 : Int
  x1 : Int
  y0 : Int
  y1 : Int

/-- One iteration of R96 on unbounded numbers. -/
def ExactRegs.iterate (r : ExactRegs) : ExactRegs :=
  { a := r.b
    b := r.a % r.b
    x0 := r.x1
    x1 := r.x0 - (r.a / r.b : Nat) * r.x1
    y0 := r.y1
    y1 := r.y0 - (r.a / r.b : Nat) * r.y1 }

/-- At most n iterations of R96 on unbounded numbers. -/
def exactLoop : Nat → ExactRegs → ExactRegs
  | 0, r => r
  | n + 1, r => if r.b = 0 then r else exactLoop n r.iterate

/-- The start of R96 on unbounded numbers. -/
def exactStart (e phi : Word) : ExactRegs :=
  { a := e.toNat, b := phi.toNat, x0 := 1, x1 := 0, y0 := 0, y1 := 1 }

/-- How a command that draws nothing completes, as its rule gives it: TOT R86, SELE R89 and R91, INV R101 and R102, GCD R95, ISPRIME R79 and R82. A
drawing command does not complete so. -/
def CompletesAs (op : Opcode) (a b : Word) (c : Completion) : Prop :=
  match op with
  | .tot =>
    ((1 ≤ a.toNat ∧ a.toNat ≤ 65535 ∧ 1 ≤ b.toNat ∧ b.toNat ≤ 65535) → ∃ v, c = .ok v ∧ v.toNat = (a.toNat - 1) * (b.toNat - 1)) ∧
      ((a = 0 ∨ 65535 < a.toNat ∨ b = 0 ∨ 65535 < b.toNat) → c = .domain)
  | .sele => (65537 < a.toNat → c = .ok 65537) ∧ (a.toNat ≤ 2 → c = .domain) ∧ (a.toNat ≤ 2 ∨ 65537 < a.toNat)
  | .inv =>
    ((1 ≤ b.toNat ∧ Nat.gcd a.toNat b.toNat = 1) → ∃ d, c = .ok d ∧ d.toNat < b.toNat ∧ d.toNat * a.toNat ≡ 1 [MOD b.toNat]) ∧
      ((b = 0 ∨ Nat.gcd a.toNat b.toNat ≠ 1) → c = .noInverse)
  | .gcd => ∃ g, c = .ok g ∧ g.toNat = Nat.gcd a.toNat b.toNat
  | .isprime =>
    ((a.toNat ≤ 65535 ∧ a.toNat.Prime) → c = .ok 1) ∧ ((a.toNat ≤ 65535 ∧ ¬ a.toNat.Prime) → c = .ok 0) ∧ (65535 < a.toNat → c = .domain)
  | .genp => False

end Sys2Proof.Machine

open Sys2Proof Sys2Proof.Machine

/-! ## Encoding -/

/-- Decoding the word of a well-formed command gives it back, whatever its register fields (R56, R57, R61). -/
def Obligations.DecodeOfEncodeIsTheCommand : Prop :=
  ∀ i : Instr, i.wellFormed = true → decode (encode i) = .legal i ∧ decodeBytes (lanesOfWord (encode i)) = .legal i

/-- Each word has one meaning: a word decodes to a command exactly when it is that command's word (R56, R57). -/
def Obligations.LegalWordsAreExactlyTheEncodings : Prop :=
  ∀ (w : Word) (i : Instr), decode w = .legal i ↔ w = encode i

/-- R56, R57: a word is legal exactly when it matches a row of R56's table, the row is that of its opcode, and it matches no other row. -/
def Obligations.LegalExactlyWhenOneRowMatches : Prop :=
  (∀ (w : Word) (r : EncodingRow), r ∈ encodingRows → (r.matches w = true ↔ ∃ i : Instr, decode w = .legal i ∧ i.opcode = r.op)) ∧
  (∀ (w : Word) (i : Instr), decode w = .legal i → ∃ r ∈ encodingRows, r.matches w = true) ∧
  (∀ (w : Word) (r r' : EncodingRow), r ∈ encodingRows → r' ∈ encodingRows → r.matches w = true → r'.matches w = true → r = r')

/-- R58: the illegal words, by their bits. -/
def Obligations.IllegalWordsByTheirBits : Prop :=
  ∀ w : Word, (∃ why, decode w = .illegal why) ↔
    (w.toNat % 16 = 0 ∨ 7 ≤ w.toNat % 16 ∨ w.toNat / 2 ^ 15 ≠ 0 ∨ w.toNat / 2 ^ 11 % 2 ≠ 0 ∨ w.toNat / 2 ^ 7 % 2 ≠ 0 ∨
      (w.toNat % 16 = 1 ∧ (w.toNat / 2 ^ 8 % 8 ≠ 0 ∨ w.toNat / 2 ^ 12 % 8 ≠ 0)) ∨
      ((w.toNat % 16 = 3 ∨ w.toNat % 16 = 6) ∧ w.toNat / 2 ^ 12 % 8 ≠ 0))

/-- One word of each command, and three illegal words, from 95_test_vectors.md 2.1 (R52, R55, R56, R58). The spec knows one outcome for an illegal
word, Illegal: the names of the reasons are the model's (log 20, DESIGN CHOICE). -/
def Obligations.SampleWordsDecode : Prop :=
  decode 0x00000071 = .legal (.genp 7) ∧ decode 0x00001022 = .legal (.tot 2 0 1) ∧ decode 0x00000233 = .legal (.sele 3 2) ∧
  decode 0x00002344 = .legal (.inv 4 3 2) ∧ decode 0x00002355 = .legal (.gcd 5 3 2) ∧ decode 0x00000066 = .legal (.isprime 6 0) ∧
  decode 0x00000000 = .illegal .reservedOpcode ∧ decode 0x00000081 = .illegal .reservedBits ∧ decode 0x00001003 = .illegal .unusedField

/-! ## A step -/

/-- When the next turn is the host's well-formed write of a legal word to CMD, the step is `exec` of the decoded command at the state whose turn is
taken off the schedule and whose bus response is that of a served write (R39, R63, R68). -/
def Obligations.StepRunsTheDecodedCommand : Prop :=
  ∀ (s : State) (a : WriteAccess) (rest : List Event) (i : Instr),
    s.inputs = .hostWrite a :: rest → a.wellFormed = true → a.off = 0 → s.resetHeld = false → decode a.data = .legal i →
      step s = exec i { s with inputs := rest, resp := some .written }

/-- An instruction placed by `withFetchWord` is what the next step runs, from any state (how a command is placed is the model's choice,
log 9). -/
def Obligations.PlacedWordRunsNext : Prop :=
  ∀ (s : State) (nbits w : Nat) (i : Instr), decodeTableWord nbits w = some i →
    step (s.withFetchWord nbits w) = exec i { s with resp := some .written, resetHeld := false }

/-- R121, R71: an engine that is idle or waiting takes no step: its turn changes nothing, and with no turn scheduled the machine stays as it is
(what a step does at the end of the schedule is the model's choice, log 3). -/
def Obligations.IdleOrWaitingEngineTakesNoStep : Prop :=
  ∀ s : State, (∀ op rd a b, s.phase ≠ .busy op rd a b .compute) →
    (s.inputs = [] → step s = .next s) ∧
    (∀ rest, s.inputs = .engine :: rest → step s = .next { s with inputs := rest })

/-! ## Acceptance -/

/-- R63, R65, R20: a command issued to an idle block is accepted, and that is the whole step: the operands are latched, BUSY is set, DONE and DRAWCNT
are cleared, and CODE, the registers, the schedule and everything else stay. -/
def Obligations.AcceptanceLatchesOperands : Prop :=
  ∀ (s : State) (i : Instr), s.busy = false →
    exec i s = .next { s with
      done := false
      drawCnt := 0
      busy := true
      phase := .busy i.opcode i.rd (readReg s i.rs1) (readReg s i.rs2) .compute }

/-- R64: a write to CMD while BUSY = 1 is no acceptance: any word, legal or not, is discarded, OVR is set and nothing else changes. -/
def Obligations.CommandWhileBusyIsDiscarded : Prop :=
  ∀ s : State, s.busy = true →
    (∀ i : Instr, exec i s = .next { s with ovr := true }) ∧
    (∀ (a : WriteAccess) (rest : List Event), s.inputs = .hostWrite a :: rest → a.wellFormed = true → a.off = 0 → s.resetHeld = false →
      step s = .next { s with inputs := rest, resp := some .written, ovr := true })

/-- R106, R63: an illegal word written while idle completes at once with ILLEGAL: DONE is set, DRAWCNT cleared, BUSY never set, no register written. -/
def Obligations.IllegalWordCompletesAtAcceptance : Prop :=
  ∀ (s : State) (a : WriteAccess) (rest : List Event) (why : Reject), s.busy = false → s.inputs = .hostWrite a :: rest →
    a.wellFormed = true → a.off = 0 → s.resetHeld = false → decode a.data = .illegal why →
      step s = .next { s with inputs := rest, resp := some .written, code := .illegal, done := true, drawCnt := 0 }

/-- R65: after acceptance a command reads no register: its turn in the schedule ends the same way whatever the registers hold, and writes the same
value to the same register or none. -/
def Obligations.AcceptedCommandReadsNoRegister : Prop :=
  ∀ (s : State) (regs : Vector Word 8) (rest : List Event) (op : Opcode) (rd : RegIdx) (a b : Word) (stage : Stage) (t : State),
    s.phase = .busy op rd a b stage → CommandTurn s.inputs rest → step s = .next t →
      ∃ u, step { s with regs := regs } = .next u ∧ u.phase = t.phase ∧ u.busy = t.busy ∧ u.done = t.done ∧ u.code = t.code ∧
        u.drawCnt = t.drawCnt ∧ u.entPending = t.entPending ∧
        ((t.done = true ∧ t.code = .ok ∧ readReg u rd = readReg t rd ∧
            ∀ k, k ≠ rd → readReg t k = readReg s k ∧ readReg u k = readReg { s with regs := regs } k) ∨
          (t.regs = s.regs ∧ u.regs = regs))

/-! ## The six commands, from the host's submission to the end

Each statement runs the command from `exec`, the acceptance, through `polls` (the host's reads and unrequested words), the engine's turn, and for the
drawing commands the turns `pre` of rejected words and the word that ends it. -/

/-- R85, R86: TOT with both operands in [1, 65535] writes (p − 1)(q − 1), exactly, and completes OK with no draw.
The turns of the schedule are the model's form of the interleaving (logs 1, 3, 4). -/
def Obligations.TotWritesTheTotient : Prop :=
  ∀ (s : State) (rd rs1 rs2 : RegIdx) (polls rest : List Event), ReadyFor s polls rest →
    1 ≤ (readReg s rs1).toNat → (readReg s rs1).toNat ≤ 65535 → 1 ≤ (readReg s rs2).toNat → (readReg s rs2).toNat ≤ 65535 →
      ∃ (t u : State) (v : Word), exec (.tot rd rs1 rs2) s = .next t ∧ runSteps (polls.length + 1) t = .next u ∧ Passed s u polls rest ∧
        EndsWith s u rd (.ok v) 0 ∧ v.toNat = ((readReg s rs1).toNat - 1) * ((readReg s rs2).toNat - 1)

/-- R86, R105: TOT with an operand 0 or above 0xFFFF completes with DOMAIN and writes no register.
The turns of the schedule are the model's form of the interleaving (logs 1, 3, 4). -/
def Obligations.TotOutsideItsDomain : Prop :=
  ∀ (s : State) (rd rs1 rs2 : RegIdx) (polls rest : List Event), ReadyFor s polls rest →
    (readReg s rs1 = 0 ∨ 65535 < (readReg s rs1).toNat ∨ readReg s rs2 = 0 ∨ 65535 < (readReg s rs2).toNat) →
      ∃ (t u : State), exec (.tot rd rs1 rs2) s = .next t ∧ runSteps (polls.length + 1) t = .next u ∧ Passed s u polls rest ∧
        EndsWith s u rd .domain 0

/-- R80, R81: GENP writes the first prime among the words delivered to it, zero-extended, and DRAWCNT counts every word drawn.
The turns of the schedule are the model's form of the interleaving (logs 1, 3, 4). -/
def Obligations.GenpWritesTheFirstPrimeDrawn : Prop :=
  ∀ (s : State) (rd : RegIdx) (polls pre : List Event) (w : Half) (rest : List Event), ReadyFor s polls (pre ++ .deliver w :: rest) →
    OffersOnly rejectedByGenp pre → w.toNat.Prime →
      ∃ t u : State, exec (.genp rd) s = .next t ∧ runSteps (polls.length + 1 + pre.length + 1) t = .next u ∧
        Passed s u (polls ++ pre) rest ∧ EndsWith s u rd (.ok (w.setWidth 32)) (countOf (wordCount pre + 1))

/-- R81, R74, R66: as long as no delivered word is prime, GENP stays busy with a word requested; the words it rejected are counted.
The turns of the schedule are the model's form of the interleaving (logs 1, 3, 4). -/
def Obligations.GenpWaitsWhileNoPrimeComes : Prop :=
  ∀ (s : State) (rd : RegIdx) (polls pre rest : List Event), ReadyFor s polls (pre ++ rest) → OffersOnly rejectedByGenp pre →
    ∃ t u : State, exec (.genp rd) s = .next t ∧ runSteps (polls.length + 1 + pre.length) t = .next u ∧
      Passed s u (polls ++ pre) rest ∧ WaitsIn s u (.genp rd) (countOf (wordCount pre))

/-- R89, R92: SELE with φ > 65537 writes 65537 in its first engine step, unchecked, with no draw.
The turns of the schedule are the model's form of the interleaving (logs 1, 3, 4). -/
def Obligations.SeleFastPathWritesTheFixedExponent : Prop :=
  ∀ (s : State) (rd rs1 : RegIdx) (polls rest : List Event), ReadyFor s polls rest →
    65537 < (readReg s rs1).toNat →
      ∃ (t u : State), exec (.sele rd rs1) s = .next t ∧ runSteps (polls.length + 1) t = .next u ∧ Passed s u polls rest ∧
        EndsWith s u rd (.ok 65537) 0

/-- R91, R92: SELE with φ ≤ 2 completes with DOMAIN, draws nothing and writes no register.
The turns of the schedule are the model's form of the interleaving (logs 1, 3, 4). -/
def Obligations.SeleOutsideItsDomain : Prop :=
  ∀ (s : State) (rd rs1 : RegIdx) (polls rest : List Event), ReadyFor s polls rest →
    (readReg s rs1).toNat ≤ 2 →
      ∃ (t u : State), exec (.sele rd rs1) s = .next t ∧ runSteps (polls.length + 1) t = .next u ∧ Passed s u polls rest ∧
        EndsWith s u rd .domain 0

/-- R90, R92: SELE with 3 ≤ φ ≤ 65537 writes the first delivered prime c with c < φ and gcd(c, φ) = 1.
The turns of the schedule are the model's form of the interleaving (logs 1, 3, 4). -/
def Obligations.SeleSlowPathWritesTheFirstAcceptablePrime : Prop :=
  ∀ (s : State) (rd rs1 : RegIdx) (polls pre : List Event) (w : Half) (rest : List Event), ReadyFor s polls (pre ++ .deliver w :: rest) →
    3 ≤ (readReg s rs1).toNat → (readReg s rs1).toNat ≤ 65537 →
    OffersOnly (fun c => ¬ acceptedBySele (readReg s rs1) c) pre → acceptedBySele (readReg s rs1) w →
      ∃ t u : State, exec (.sele rd rs1) s = .next t ∧ runSteps (polls.length + 1 + pre.length + 1) t = .next u ∧
        Passed s u (polls ++ pre) rest ∧ EndsWith s u rd (.ok (w.setWidth 32)) (countOf (wordCount pre + 1))

/-- R92, R74: as long as no delivered word is acceptable, SELE's slow path stays busy with a word requested.
The turns of the schedule are the model's form of the interleaving (logs 1, 3, 4). -/
def Obligations.SeleSlowPathWaitsWhileNothingAcceptableComes : Prop :=
  ∀ (s : State) (rd rs1 : RegIdx) (polls pre rest : List Event), ReadyFor s polls (pre ++ rest) →
    3 ≤ (readReg s rs1).toNat → (readReg s rs1).toNat ≤ 65537 → OffersOnly (fun c => ¬ acceptedBySele (readReg s rs1) c) pre →
      ∃ t u : State, exec (.sele rd rs1) s = .next t ∧ runSteps (polls.length + 1 + pre.length) t = .next u ∧
        Passed s u (polls ++ pre) rest ∧ WaitsIn s u (.sele rd rs1) (countOf (wordCount pre))

/-- R101, R102: INV with φ ≥ 1 and gcd(e, φ) = 1 writes the d in [0, φ − 1] with d·e ≡ 1 (mod φ), and no other value there has that property.
The turns of the schedule are the model's form of the interleaving (logs 1, 3, 4). -/
def Obligations.InvWritesTheInverse : Prop :=
  ∀ (s : State) (rd rs1 rs2 : RegIdx) (polls rest : List Event), ReadyFor s polls rest →
    1 ≤ (readReg s rs2).toNat → Nat.gcd (readReg s rs1).toNat (readReg s rs2).toNat = 1 →
      ∃ (t u : State) (d : Word), exec (.inv rd rs1 rs2) s = .next t ∧ runSteps (polls.length + 1) t = .next u ∧ Passed s u polls rest ∧
        EndsWith s u rd (.ok d) 0 ∧ d.toNat < (readReg s rs2).toNat ∧ d.toNat * (readReg s rs1).toNat ≡ 1 [MOD (readReg s rs2).toNat] ∧
        ∀ m : Nat, m < (readReg s rs2).toNat → m * (readReg s rs1).toNat ≡ 1 [MOD (readReg s rs2).toNat] → m = d.toNat

/-- R99, R101, R102: INV with φ = 0 or gcd(e, φ) ≠ 1 completes with NO_INVERSE and writes no register.
The turns of the schedule are the model's form of the interleaving (logs 1, 3, 4). -/
def Obligations.InvReportsNoInverse : Prop :=
  ∀ (s : State) (rd rs1 rs2 : RegIdx) (polls rest : List Event), ReadyFor s polls rest →
    (readReg s rs2 = 0 ∨ Nat.gcd (readReg s rs1).toNat (readReg s rs2).toNat ≠ 1) →
      ∃ (t u : State), exec (.inv rd rs1 rs2) s = .next t ∧ runSteps (polls.length + 1) t = .next u ∧ Passed s u polls rest ∧
        EndsWith s u rd .noInverse 0

/-- R88, R95: GCD writes the mathematical gcd of any two operands and completes OK with no draw.
The turns of the schedule are the model's form of the interleaving (logs 1, 3, 4). -/
def Obligations.GcdWritesTheGcd : Prop :=
  ∀ (s : State) (rd rs1 rs2 : RegIdx) (polls rest : List Event), ReadyFor s polls rest →
      ∃ (t u : State) (g : Word), exec (.gcd rd rs1 rs2) s = .next t ∧ runSteps (polls.length + 1) t = .next u ∧ Passed s u polls rest ∧
        EndsWith s u rd (.ok g) 0 ∧ g.toNat = Nat.gcd (readReg s rs1).toNat (readReg s rs2).toNat

/-- R82, R79: ISPRIME of a value up to 0xFFFF writes 1 if it is prime and 0 if it is not, and completes OK with no draw.
The turns of the schedule are the model's form of the interleaving (logs 1, 3, 4). -/
def Obligations.IsprimeWritesTheVerdict : Prop :=
  ∀ (s : State) (rd rs1 : RegIdx) (polls rest : List Event), ReadyFor s polls rest →
    (readReg s rs1).toNat ≤ 65535 →
      ∃ (t u : State) (v : Word), exec (.isprime rd rs1) s = .next t ∧ runSteps (polls.length + 1) t = .next u ∧ Passed s u polls rest ∧
        EndsWith s u rd (.ok v) 0 ∧ ((readReg s rs1).toNat.Prime → v = 1) ∧ (¬ (readReg s rs1).toNat.Prime → v = 0)

/-- R82, R105: ISPRIME of a value above 0xFFFF completes with DOMAIN and writes no register.
The turns of the schedule are the model's form of the interleaving (logs 1, 3, 4). -/
def Obligations.IsprimeOutsideItsDomain : Prop :=
  ∀ (s : State) (rd rs1 : RegIdx) (polls rest : List Event), ReadyFor s polls rest →
    65535 < (readReg s rs1).toNat →
      ∃ (t u : State), exec (.isprime rd rs1) s = .next t ∧ runSteps (polls.length + 1) t = .next u ∧ Passed s u polls rest ∧
        EndsWith s u rd .domain 0

/-- The frame of all six commands (R16, R67, R112). Issuing a command changes no register, CODE, request, datapath register, bus response, schedule or
reset input, OVR only on a busy block, and no byte of the window outside STATUS and DRAWCNT. Whatever turn a command in progress then has in the
schedule, it leaves every register but its RD, OVR, the bus response, the reset input, and every byte of the window outside STATUS, DRAWCNT and RD. -/
def Obligations.CommandFrame : Prop :=
  (∀ (i : Instr) (s t : State), exec i s = .next t →
    t.regs = s.regs ∧ t.code = s.code ∧ t.entPending = s.entPending ∧ t.datapath = s.datapath ∧ t.resp = s.resp ∧ t.inputs = s.inputs ∧
    t.resetHeld = s.resetHeld ∧ (s.busy = false → t.ovr = s.ovr) ∧
    (∀ off, targetOf off ≠ .status → targetOf off ≠ .drawCnt → windowByte t off = windowByte s off)) ∧
  (∀ (s t : State) (rest : List Event) (op : Opcode) (rd : RegIdx) (a b : Word) (stage : Stage),
    s.phase = .busy op rd a b stage → CommandTurn s.inputs rest → step s = .next t →
      (∀ k, k ≠ rd → readReg t k = readReg s k) ∧ t.ovr = s.ovr ∧ t.resp = s.resp ∧ t.resetHeld = s.resetHeld ∧ t.inputs = rest ∧
      (∀ off, targetOf off ≠ .status → targetOf off ≠ .drawCnt → targetOf off ≠ .reg rd → windowByte t off = windowByte s off))

/-! ## The engine and the entropy source, one turn at a time -/

/-- R70, and each command's rule: TOT, INV, GCD, ISPRIME, and SELE outside its slow path complete in their first engine step, whatever the operands, draw
nothing, and end as their latched operands say. That an empty schedule is the engine's turn is the model's choice of R71's interleavings (log 3). -/
def Obligations.OneEngineStepWithoutDraws : Prop :=
  ∀ (s : State) (rest : List Event) (op : Opcode) (rd : RegIdx) (a b : Word), s.Inv → s.phase = .busy op rd a b .compute →
    engineTurn s.inputs = some rest →
    (op = .tot ∨ op = .inv ∨ op = .gcd ∨ op = .isprime ∨ (op = .sele ∧ (65537 < a.toNat ∨ a.toNat ≤ 2))) →
      ∃ (t : State) (c : Completion), step s = .next t ∧ CompletesAs op a b c ∧ EndsWith s t rd c s.drawCnt ∧ t.inputs = rest ∧ t.resp = s.resp

/-- R66, R68: GENP, and SELE on its slow path, end their first engine step with a request: nothing is drawn yet, BUSY stays, and nothing else changes. That
an empty schedule is the engine's turn is the model's choice of R71's interleavings (log 3). -/
def Obligations.DrawingCommandsRequestAWord : Prop :=
  ∀ (s : State) (rest : List Event) (op : Opcode) (rd : RegIdx) (a b : Word), s.phase = .busy op rd a b .compute →
    engineTurn s.inputs = some rest →
    (op = .genp ∨ (op = .sele ∧ 3 ≤ a.toNat ∧ a.toNat ≤ 65537)) →
      step s = .next { s with inputs := rest, entPending := true, phase := .busy op rd a b .awaitDraw }

/-- R66, R69: a word delivered to a waiting GENP is counted, and accepted exactly if it is prime; a rejected one leaves it waiting with a new request. -/
def Obligations.GenpJudgesEachWord : Prop :=
  ∀ (s : State) (w : Half) (rest : List Event) (rd : RegIdx) (a b : Word), s.Inv → s.phase = .busy .genp rd a b .awaitDraw →
    s.inputs = .deliver w :: rest →
      ∃ t : State, step s = .next t ∧ t.inputs = rest ∧ t.resp = s.resp ∧
        (w.toNat.Prime → EndsWith s t rd (.ok (w.setWidth 32)) (bumpDrawCnt s.drawCnt)) ∧
        (¬ w.toNat.Prime → SameTuple { s with drawCnt := bumpDrawCnt s.drawCnt } t)

/-- R66, R69, R90: a word delivered to a waiting SELE is counted, and accepted exactly if it is a prime c < φ with gcd(c, φ) = 1. -/
def Obligations.SeleJudgesEachWord : Prop :=
  ∀ (s : State) (w : Half) (rest : List Event) (rd : RegIdx) (phi b : Word), s.Inv → s.phase = .busy .sele rd phi b .awaitDraw →
    s.inputs = .deliver w :: rest →
      ∃ t : State, step s = .next t ∧ t.inputs = rest ∧ t.resp = s.resp ∧
        (acceptedBySele phi w → EndsWith s t rd (.ok (w.setWidth 32)) (bumpDrawCnt s.drawCnt)) ∧
        (¬ acceptedBySele phi w → SameTuple { s with drawCnt := bumpDrawCnt s.drawCnt } t)

/-- R21: DRAWCNT's increment adds one and saturates at 0xFFFFFFFF. -/
def Obligations.DrawCounterSaturates : Prop :=
  bumpDrawCnt 0xFFFFFFFF = 0xFFFFFFFF ∧ ∀ n : Word, n ≠ 0xFFFFFFFF → (bumpDrawCnt n).toNat = n.toNat + 1

/-- R125, R68: while ent_pending = 0 the entropy source has no `Deliver` step: an offered word changes nothing.
That such a word is discarded and not kept for the next request is the model's choice of R125's two (log 4). -/
def Obligations.NoWordIsTakenWithoutARequest : Prop :=
  ∀ (s : State) (w : Half) (rest : List Event), s.entPending = false → s.inputs = .deliver w :: rest → step s = .next { s with inputs := rest }

/-! ## The arithmetic -/

/-- R79: the primality test is exact on all 65536 inputs, and 65521 is the largest it accepts. -/
def Obligations.PrimalityTestIsExact : Prop :=
  (∀ n : Half, isPrime16 n = true ↔ n.toNat.Prime) ∧ isPrime16 65521 = true ∧ ∀ n : Half, isPrime16 n = true → 2 ≤ n.toNat ∧ n.toNat ≤ 65521

/-- R96: on return of the extended Euclidean algorithm the remainder is 0, a = gcd(e, φ) and e·x0 + φ·y0 = a. -/
def Obligations.ExtendedEuclidGivesBezout : Prop :=
  ∀ (e phi : Word) (r : EuclidRegs), 1 ≤ phi.toNat →
    (extEuclid e phi r).b = 0 ∧ (extEuclid e phi r).a.toNat = Nat.gcd e.toNat phi.toNat ∧
    (e.toNat : Int) * (extEuclid e phi r).x0.toInt + (phi.toNat : Int) * (extEuclid e phi r).y0.toInt = ((extEuclid e phi r).a.toNat : Int)

/-- R100: the u32 and s64 registers of the datapath agree after every iteration with the same algorithm on unbounded integers; no coefficient
leaves [−(2³² − 1), 2³² − 1] and no product q·x1 or q·y1 leaves [−(2³³ − 1), 2³³ − 1]. -/
def Obligations.SignedDatapathNeverOverflows : Prop :=
  ∀ (e phi : Word) (r : EuclidRegs) (n : Nat), 1 ≤ phi.toNat →
    let m := euclidLoop n (r.load e phi)
    let x := exactLoop n (exactStart e phi)
    m.a.toNat = x.a ∧ m.b.toNat = x.b ∧ m.x0.toInt = x.x0 ∧ m.x1.toInt = x.x1 ∧ m.y0.toInt = x.y0 ∧ m.y1.toInt = x.y1 ∧
      |x.x0| ≤ 2 ^ 32 - 1 ∧ |x.x1| ≤ 2 ^ 32 - 1 ∧ |x.y0| ≤ 2 ^ 32 - 1 ∧ |x.y1| ≤ 2 ^ 32 - 1 ∧
      (x.b ≠ 0 → |((x.a / x.b : Nat) : Int) * x.x1| ≤ 2 ^ 33 - 1 ∧ |((x.a / x.b : Nat) : Int) * x.y1| ≤ 2 ^ 33 - 1)

/-- R98: the normalization with the C-like remainder is the floor modulus of the coefficient, for every coefficient and every φ ≥ 1,
and the same value comes out if the formula's `mod` is read as the floor modulus. -/
def Obligations.NormalizationIsTheFloorModulus : Prop :=
  ∀ (x : Coef) (phi : Word), 1 ≤ phi.toNat →
    ((normalize x phi).toNat : Int) = x.toInt % (phi.toNat : Int) ∧
    ((normalize x phi).toNat : Int) = (x.toInt % (phi.toNat : Int) + (phi.toNat : Int)) % (phi.toNat : Int)

/-- R33, R30: what a command computes depends on its operands and the words it draws alone: the datapath registers a previous command left are not read. -/
def Obligations.ResultsIgnoreTheOldDatapath : Prop :=
  (∀ (op : Opcode) (a b : Word) (dp dp' : Datapath), (engineExec op a b dp).action = (engineExec op a b dp').action) ∧
  (∀ (op : Opcode) (a : Word) (w : Half) (dp dp' : Datapath), (onWord op a w dp).map Outturn.action = (onWord op a w dp').map Outturn.action)

/-- R93: for 3 ≤ φ ≤ 65537 a word that SELE accepts exists. -/
def Obligations.AnAcceptableExponentExists : Prop :=
  ∀ (phi : Word) (dp : Datapath), 3 ≤ phi.toNat → phi.toNat ≤ 65537 →
    ∃ w : Half, (seleOnWord phi w dp).action = .complete (.ok (w.setWidth 32)) ∧ 1 < w.toNat ∧ w.toNat < phi.toNat ∧
      Nat.gcd w.toNat phi.toNat = 1

/-- R94, R128: for φ = TOT(p, q), p and q in [1, 65535], every exponent SELE completes with, on either path, has an inverse: INV completes OK. -/
def Obligations.PipelineExponentHasAnInverse : Prop :=
  ∀ (p q : Half) (e : Word) (dp dp' : Datapath), 1 ≤ p.toNat → 1 ≤ q.toNat →
    ((seleStart (totient p q) dp).action = .complete (.ok e) ∨
      ((seleStart (totient p q) dp).action = .draw ∧ ∃ w, (seleOnWord (totient p q) w dp).action = .complete (.ok e))) →
      ∃ d, (invStart e (totient p q) dp').action = .complete (.ok d) ∧ d.toNat * e.toNat % (totient p q).toNat = 1

/-! ## The register window -/

/-- R19: the STATUS word, bit by bit, and the four codes. -/
def Obligations.StatusWordLayout : Prop :=
  ∀ s : State, (statusWord s).getLsbD 0 = s.busy ∧ (statusWord s).getLsbD 1 = s.done ∧ (statusWord s).getLsbD 4 = s.ovr ∧
    (s.code = .ok → (statusWord s).extractLsb' 2 2 = 0b00) ∧ (s.code = .noInverse → (statusWord s).extractLsb' 2 2 = 0b01) ∧
    (s.code = .domain → (statusWord s).extractLsb' 2 2 = 0b10) ∧ (s.code = .illegal → (statusWord s).extractLsb' 2 2 = 0b11) ∧
    ∀ j, 5 ≤ j → (statusWord s).getLsbD j = false

/-- R38, R36, R41, R75: what a well-formed read of each offset returns, and that it changes nothing of the block, whether or not it is busy. -/
def Obligations.ReadsReturnTheRegisterMap : Prop :=
  ∀ (s : State) (off : BitVec 6) (rest : List Event), s.resetHeld = false → s.inputs = .hostRead { off := off, size := 4 } :: rest →
    off.toNat % 4 = 0 →
      ∃ v : Word, step s = .next { s with inputs := rest, resp := some (.data v) } ∧
        (off.toNat = 0x00 → v = 0) ∧ (off.toNat = 0x04 → v = statusWord s) ∧ (off.toNat = 0x08 → v = s.drawCnt) ∧
        (0x0C ≤ off.toNat ∧ off.toNat ≤ 0x1C → v = 0) ∧
        (∀ k : RegIdx, off.toNat = 0x20 + 4 * k.toNat → v = readReg s k)

/-- R39, R19, R130: what a well-formed write of each offset but CMD does. -/
def Obligations.WritesFollowTheTable : Prop :=
  ∀ (s : State) (off : BitVec 6) (v : Word) (rest : List Event), s.resetHeld = false →
    s.inputs = .hostWrite { off := off, size := 4, data := v, strb := 0b1111 } :: rest → off.toNat % 4 = 0 →
      (off.toNat = 0x04 → step s = .next { s with inputs := rest, resp := some .written, ovr := s.ovr && !v.getLsbD 4 }) ∧
      (0x08 ≤ off.toNat ∧ off.toNat ≤ 0x1C → step s = .next { s with inputs := rest, resp := some .written }) ∧
      (∀ k : RegIdx, off.toNat = 0x20 + 4 * k.toNat → s.busy = true →
        step s = .next { s with inputs := rest, resp := some .written, ovr := true }) ∧
      (∀ k : RegIdx, off.toNat = 0x20 + 4 * k.toNat → s.busy = false →
        ∃ t, step s = .next t ∧ readReg t k = v ∧ (∀ j, j ≠ k → readReg t j = readReg s j) ∧
          t = { s with inputs := rest, resp := some .written, regs := t.regs })

/-- R40, R107, R111: an access that is misaligned, not 32 bits wide, or a write without all four strobes gets a bus error and has no effect, even on a
busy block: no command, no OVR. The error's read data is 0. -/
def Obligations.MalformedAccessHasNoEffect : Prop :=
  (∀ (s : State) (r : ReadAccess) (rest : List Event), s.resetHeld = false → s.inputs = .hostRead r :: rest →
    (r.size ≠ 4 ∨ r.off.toNat % 4 ≠ 0) → step s = .next { s with inputs := rest, resp := some .busError }) ∧
  (∀ (s : State) (a : WriteAccess) (rest : List Event), s.resetHeld = false → s.inputs = .hostWrite a :: rest →
    (a.size ≠ 4 ∨ a.off.toNat % 4 ≠ 0 ∨ a.strb ≠ 0b1111) → step s = .next { s with inputs := rest, resp := some .busError }) ∧
  Response.busError.readData = 0

/-- R24: the phase is observable only through BUSY, DONE and DRAWCNT: two states that agree on the registers, the STATUS fields and DRAWCNT answer
every read alike. -/
def Obligations.ReadsSeeOnlyTheRegisters : Prop :=
  ∀ (s u : State) (r : ReadAccess), s.regs = u.regs → s.busy = u.busy → s.done = u.done → s.code = u.code → s.ovr = u.ovr →
    s.drawCnt = u.drawCnt → (hostRead r s).resp = (hostRead r u).resp

/-- R37: the byte at window offset 4n + j is bits [8j+7 : 8j] of the register at 4n: the four bytes make the word, the lowest address least
significant. -/
def Obligations.BytesAreLittleEndianLanes : Prop :=
  ∀ (s : State) (off : BitVec 6), off.toNat % 4 = 0 →
    readTarget s (targetOf off) = wordOfLanes (windowByte s off) (windowByte s (off + 1)) (windowByte s (off + 2)) (windowByte s (off + 3))

/-- R35: an address reaches the block exactly if it lies in the 64 bytes from MIE_BASE, a multiple of 64, at the offset of its low six bits. -/
def Obligations.WindowDecodesLowSixBits : Prop :=
  Config.mieBase % 64 = 0 ∧ ∀ addr : Nat,
    (Config.mieBase ≤ addr ∧ addr ≤ Config.mieBase + 0x3F → windowOffset Config.mieBase addr = some (BitVec.ofNat 6 (addr % 64))) ∧
    (addr < Config.mieBase ∨ Config.mieBase + 0x3F < addr → windowOffset Config.mieBase addr = none)

/-! ## Whole-machine rules -/

/-- R16: a register changes in two ways only, beside reset: by a host's well-formed write to it while BUSY = 0, or by the completion with code OK of the
command in progress, whose RD names it. -/
def Obligations.RegistersChangeInTwoWays : Prop :=
  ∀ (s t : State) (k : RegIdx), step s = .next t → readReg t k ≠ readReg s k →
    (∃ a rest, s.inputs = .hostWrite a :: rest ∧ a.wellFormed = true ∧ targetOf a.off = .reg k ∧ s.busy = false ∧ readReg t k = a.data) ∨
    (∃ op a b stage rest, s.phase = .busy op k a b stage ∧ CommandTurn s.inputs rest ∧ t.phase = .idle ∧ t.busy = false ∧ t.done = true ∧
      t.code = .ok) ∨
    (∃ rest, s.inputs = .reset :: rest ∨ s.inputs = .holdReset :: rest)

/-- R16, R112: a command that ends with a code other than OK writes no register. -/
def Obligations.FailedCommandsWriteNoRegister : Prop :=
  ∀ (s t : State) (rest : List Event) (op : Opcode) (rd : RegIdx) (a b : Word) (stage : Stage),
    s.phase = .busy op rd a b stage → CommandTurn s.inputs rest → step s = .next t → t.phase = .idle → t.code ≠ .ok → t.regs = s.regs

/-- R108: OVR is set only by a well-formed host write to CMD or to an operand register while BUSY = 1. -/
def Obligations.OverrunFlagIsSetByDiscardedWritesOnly : Prop :=
  ∀ s t : State, step s = .next t → s.ovr = false → t.ovr = true →
    s.busy = true ∧ ∃ a rest, s.inputs = .hostWrite a :: rest ∧ a.wellFormed = true ∧
      (targetOf a.off = .cmd ∨ ∃ k, targetOf a.off = .reg k)

/-- R108: OVR is sticky: only a well-formed host write to STATUS with bit 4 set, or reset, clears it. -/
def Obligations.OverrunFlagIsSticky : Prop :=
  ∀ s t : State, step s = .next t → s.ovr = true → t.ovr = false →
    (∃ a rest, s.inputs = .hostWrite a :: rest ∧ a.wellFormed = true ∧ targetOf a.off = .status ∧ a.data.getLsbD 4 = true) ∨
    (∃ rest, s.inputs = .reset :: rest ∨ s.inputs = .holdReset :: rest)

/-- R20: CODE changes only where the command in progress completes in this step, at the acceptance of an illegal word, which writes ILLEGAL, or at
reset. -/
def Obligations.CodeChangesOnlyAtCompletionOrReset : Prop :=
  ∀ s t : State, step s = .next t → t.code ≠ s.code →
    (∃ op rd a b stage rest, s.phase = .busy op rd a b stage ∧ CommandTurn s.inputs rest ∧ t.phase = .idle ∧ t.busy = false ∧ t.done = true) ∨
    (∃ a rest why, s.inputs = .hostWrite a :: rest ∧ a.wellFormed = true ∧ targetOf a.off = .cmd ∧ s.busy = false ∧
      decode a.data = .illegal why ∧ t.code = .illegal ∧ t.done = true) ∨
    (∃ rest, s.inputs = .reset :: rest ∨ s.inputs = .holdReset :: rest)

/-- R83: every GENP that a delivered word completes writes a prime p with 2 ≤ p ≤ 65521. -/
def Obligations.GenpResultIsASixteenBitPrime : Prop :=
  ∀ (s t : State) (rd : RegIdx) (a b : Word), s.Inv → s.phase = .busy .genp rd a b .awaitDraw → step s = .next t → t.done = true →
    (readReg t rd).toNat.Prime ∧ 2 ≤ (readReg t rd).toNat ∧ (readReg t rd).toNat ≤ 65521

/-- R31, R27, R69, R104: the invariants hold after every step from any state in which they hold. -/
def Obligations.InvariantsKeptByEveryStep : Prop :=
  ∀ s t : State, s.Inv → step s = .next t →
    t.Inv ∧ (t.busy = true ↔ ∃ op rd a b stage, t.phase = .busy op rd a b stage) ∧ (t.busy = true → t.done = false) ∧
      (t.entPending = true → t.busy = true) ∧ (statusWord t).toNat / 2 ^ 5 = 0

/-- The invariants hold right after reset (R30, R31). -/
def Obligations.InvariantsHoldAtReset : Prop :=
  State.reset.Inv

/-- From a state in which the invariants hold no step faults, and the only refusal is that of a host access while reset is asserted (R122). -/
def Obligations.OnlyAccessesDuringResetStop : Prop :=
  ∀ s : State, s.Inv →
    (∀ f, step s ≠ .fault f) ∧
    (∀ r, step s = .refused r → r = .accessDuringReset ∧ s.resetHeld = true ∧
      ∃ rest, (∃ a, s.inputs = .hostRead a :: rest) ∨ (∃ a, s.inputs = .hostWrite a :: rest))

/-- R111, R46: a host access and an engine step never happen in the same step. A host's turn takes itself off the schedule and leaves the datapath and
the request as they are, and the phase too, unless it is the acceptance of a legal word, which leaves the command before its engine step. -/
def Obligations.HostAccessTakesNoEngineStep : Prop :=
  ∀ (s t : State) (e : Event) (rest : List Event), s.inputs = e :: rest → ((∃ r, e = .hostRead r) ∨ ∃ a, e = .hostWrite a) → step s = .next t →
    t.inputs = rest ∧ t.datapath = s.datapath ∧ t.entPending = s.entPending ∧
    ((t.phase = s.phase ∧ t.busy = s.busy) ∨
      (∃ a i, e = .hostWrite a ∧ a.wellFormed = true ∧ targetOf a.off = .cmd ∧ s.busy = false ∧ decode a.data = .legal i ∧
        t.phase = .busy i.opcode i.rd (readReg s i.rs1) (readReg s i.rs2) .compute ∧ t.busy = true ∧ t.done = false ∧ t.regs = s.regs))

/-- R114, R28: done_o rises only at the completion of the command in progress or at the acceptance of an illegal word; it falls only at the acceptance of
a legal word or at reset; and after every acceptance of a legal word it is low. -/
def Obligations.DoneOutputRisesAndFalls : Prop :=
  (∀ s t : State, step s = .next t → s.doneO = false → t.doneO = true →
    (∃ op rd a b stage rest, s.phase = .busy op rd a b stage ∧ CommandTurn s.inputs rest ∧ t.phase = .idle ∧ t.busy = false) ∨
    (∃ a rest why, s.inputs = .hostWrite a :: rest ∧ a.wellFormed = true ∧ targetOf a.off = .cmd ∧ s.busy = false ∧
      decode a.data = .illegal why)) ∧
  (∀ s t : State, step s = .next t → s.doneO = true → t.doneO = false →
    (∃ a rest i, s.inputs = .hostWrite a :: rest ∧ a.wellFormed = true ∧ targetOf a.off = .cmd ∧ s.busy = false ∧ decode a.data = .legal i) ∨
    (∃ rest, s.inputs = .reset :: rest ∨ s.inputs = .holdReset :: rest)) ∧
  (∀ (s t : State) (i : Instr), s.busy = false → exec i s = .next t → t.doneO = false)

/-! ## Reset -/

/-- R30, R123: the state after reset, for every piece of state whose reset value the spec gives. -/
def Obligations.ResetValues : Prop :=
  (∀ k, readReg State.reset k = 0) ∧ statusWord State.reset = 0 ∧ State.reset.busy = false ∧ State.reset.done = false ∧
  State.reset.code = .ok ∧ State.reset.ovr = false ∧ State.reset.drawCnt = 0 ∧ State.reset.phase = .idle ∧
  State.reset.entPending = false ∧ State.reset.doneO = false

/-- R122, R123, R124, R125: reset in any phase takes the block to the reset state: the command in progress is abandoned, no code is reported, and an
outstanding request is withdrawn. That the Reset event also releases a reset that was held (log 6), and that the turns still to come stay (log 1), are
the model's choices. -/
def Obligations.ResetFromAnyState : Prop :=
  ∀ (s : State) (rest : List Event), s.inputs = .reset :: rest →
    ∃ t : State, step s = .next t ∧ t.inputs = rest ∧ t.resetHeld = false ∧ SameTuple State.reset t ∧ statusWord t = 0 ∧ t.doneO = false ∧ ∀ k, readReg t k = 0

/-- R122: while reset is asserted the block serves no host access, and stays in the reset state whatever the engine and the entropy source are offered
(93_implementation_defined.md row 4 makes the access a refusal). The held level and its release are the model's choice (log 6). -/
def Obligations.AssertedResetServesNoAccess : Prop :=
  (∀ (s : State) (rest : List Event), s.inputs = .holdReset :: rest →
    ∃ t : State, step s = .next t ∧ t.inputs = rest ∧ t.resetHeld = true ∧ SameTuple State.reset t) ∧
  (∀ (s : State) (r : ReadAccess) (rest : List Event), s.resetHeld = true → s.inputs = .hostRead r :: rest → step s = .refused .accessDuringReset) ∧
  (∀ (s : State) (a : WriteAccess) (rest : List Event), s.resetHeld = true → s.inputs = .hostWrite a :: rest → step s = .refused .accessDuringReset) ∧
  (∀ (s : State) (e : Event) (rest : List Event), s.resetHeld = true → SameTuple State.reset s → s.inputs = e :: rest →
    (e = .engine ∨ ∃ w, e = .deliver w) → step s = .next { s with inputs := rest }) ∧
  (∀ (s : State) (rest : List Event), s.inputs = .releaseReset :: rest → step s = .next { s with inputs := rest, resetHeld := false })
end

