-- ==== Sys2Proof/Laws/Encoding.lean ====
section
/-! SUPPORT. The word and its fields determine each other, and so do the word and its byte lanes. -/

namespace Sys2Proof.Laws

open Sys2Proof

/-- Reading the fields of a packed word gives them back: no bit of a field is dropped or shared. -/
@[simp] theorem fieldsOf_packFields (f : CommandFields) : fieldsOf (packFields f) = f := by
  obtain ⟨op, rd, r7, rs1, r11, rs2, high⟩ := f
  simp only [fieldsOf, packFields, bitField, placeField, CommandFields.mk.injEq]
  refine ⟨?_, ?_, ?_, ?_, ?_, ?_, ?_⟩ <;> (apply BitVec.eq_of_getLsbD_eq; intro i hi; interval_cases i <;> simp)

/-- The fields of R52 cover the word. -/
@[simp] theorem packFields_fieldsOf (w : Word) : packFields (fieldsOf w) = w := by
  simp only [fieldsOf, packFields, bitField, placeField]
  apply BitVec.eq_of_getLsbD_eq
  intro i hi
  interval_cases i <;> simp

/-- A word is the word of its four byte lanes (R37). -/
@[simp] theorem wordOfLanes_byteLane (w : Word) :
    wordOfLanes (byteLane w 0) (byteLane w 1) (byteLane w 2) (byteLane w 3) = w := by
  simp only [wordOfLanes, byteLane, placeField]
  apply BitVec.eq_of_getLsbD_eq
  intro i hi
  interval_cases i <;> simp

/-- The decoder on the bytes of a word is the decoder on the word. -/
@[simp] theorem decodeBytes_lanesOfWord (w : Word) : decodeBytes (lanesOfWord w) = decode w := by
  simp [decodeBytes, lanesOfWord]

/-- The fields of a command's word are the command's. -/
@[simp] theorem fieldsOf_encode (i : Instr) : fieldsOf (encode i) = i.fields :=
  fieldsOf_packFields _

/-- `Opcode.ofBits` reads back `Opcode.bits`. -/
@[simp] theorem ofBits_bits (op : Opcode) : Opcode.ofBits op.bits = some op := by
  cases op <;> rfl

/-- Only the opcode's own bits give it. -/
theorem bits_of_ofBits {b : BitVec 4} {op : Opcode} (h : Opcode.ofBits b = some op) : b = op.bits := by
  revert b; cases op <;> decide

/-- Every command is well formed: every value of a 3-bit field names a register (R53). -/
@[simp] theorem wellFormed_eq_true (i : Instr) : i.wellFormed = true := by
  cases i <;> rfl

end Sys2Proof.Laws
end

