-- ==== Sys2Proof/Laws/Operands.lean ====
section
/-! SUPPORT. Read after write on the operand registers (10_state.md R15–R17). -/

namespace Sys2Proof.Machine

@[simp] theorem readReg_writeReg_same (s : State) (k : RegIdx) (v : Word) : readReg (writeReg s k v) k = v := by
  simp [readReg, writeReg]

theorem readReg_writeReg_other (s : State) {j k : RegIdx} (v : Word) (h : j ≠ k) : readReg (writeReg s k v) j = readReg s j := by
  have : k.toNat ≠ j.toNat := fun e => h (BitVec.eq_of_toNat_eq e.symm)
  simp [readReg, writeReg, this]

/-- A register read depends on the register file alone. -/
theorem readReg_congr {s t : State} (h : t.regs = s.regs) (k : RegIdx) : readReg t k = readReg s k := by
  simp [readReg, h]

end Sys2Proof.Machine
end

