-- ==== Sys2Proof/Laws/State.lean ====
section
/-! SUPPORT. One lemma per field of the state and shared update, so that no proof unfolds an update. -/

namespace Sys2Proof.Machine

variable (s : State)

@[simp] theorem writeReg_regs (k : RegIdx) (v : Word) : (writeReg s k v).regs = s.regs.set k.toNat v k.isLt := rfl
@[simp] theorem writeReg_busy (k : RegIdx) (v : Word) : (writeReg s k v).busy = s.busy := rfl
@[simp] theorem writeReg_done (k : RegIdx) (v : Word) : (writeReg s k v).done = s.done := rfl
@[simp] theorem writeReg_code (k : RegIdx) (v : Word) : (writeReg s k v).code = s.code := rfl
@[simp] theorem writeReg_ovr (k : RegIdx) (v : Word) : (writeReg s k v).ovr = s.ovr := rfl
@[simp] theorem writeReg_drawCnt (k : RegIdx) (v : Word) : (writeReg s k v).drawCnt = s.drawCnt := rfl
@[simp] theorem writeReg_phase (k : RegIdx) (v : Word) : (writeReg s k v).phase = s.phase := rfl
@[simp] theorem writeReg_entPending (k : RegIdx) (v : Word) : (writeReg s k v).entPending = s.entPending := rfl
@[simp] theorem writeReg_datapath (k : RegIdx) (v : Word) : (writeReg s k v).datapath = s.datapath := rfl
@[simp] theorem writeReg_inputs (k : RegIdx) (v : Word) : (writeReg s k v).inputs = s.inputs := rfl
@[simp] theorem writeReg_resp (k : RegIdx) (v : Word) : (writeReg s k v).resp = s.resp := rfl
@[simp] theorem writeReg_resetHeld (k : RegIdx) (v : Word) : (writeReg s k v).resetHeld = s.resetHeld := rfl

@[simp] theorem overrun_regs : (overrun s).regs = s.regs := rfl
@[simp] theorem overrun_busy : (overrun s).busy = s.busy := rfl
@[simp] theorem overrun_done : (overrun s).done = s.done := rfl
@[simp] theorem overrun_code : (overrun s).code = s.code := rfl
@[simp] theorem overrun_ovr : (overrun s).ovr = true := rfl
@[simp] theorem overrun_drawCnt : (overrun s).drawCnt = s.drawCnt := rfl
@[simp] theorem overrun_phase : (overrun s).phase = s.phase := rfl
@[simp] theorem overrun_entPending : (overrun s).entPending = s.entPending := rfl
@[simp] theorem overrun_datapath : (overrun s).datapath = s.datapath := rfl
@[simp] theorem overrun_inputs : (overrun s).inputs = s.inputs := rfl
@[simp] theorem overrun_resp : (overrun s).resp = s.resp := rfl
@[simp] theorem overrun_resetHeld : (overrun s).resetHeld = s.resetHeld := rfl

@[simp] theorem writeStatus_regs (v : Word) : (writeStatus s v).regs = s.regs := rfl
@[simp] theorem writeStatus_busy (v : Word) : (writeStatus s v).busy = s.busy := rfl
@[simp] theorem writeStatus_done (v : Word) : (writeStatus s v).done = s.done := rfl
@[simp] theorem writeStatus_code (v : Word) : (writeStatus s v).code = s.code := rfl
@[simp] theorem writeStatus_ovr (v : Word) : (writeStatus s v).ovr = (s.ovr && !v.getLsbD 4) := rfl
@[simp] theorem writeStatus_drawCnt (v : Word) : (writeStatus s v).drawCnt = s.drawCnt := rfl
@[simp] theorem writeStatus_phase (v : Word) : (writeStatus s v).phase = s.phase := rfl
@[simp] theorem writeStatus_entPending (v : Word) : (writeStatus s v).entPending = s.entPending := rfl
@[simp] theorem writeStatus_datapath (v : Word) : (writeStatus s v).datapath = s.datapath := rfl
@[simp] theorem writeStatus_inputs (v : Word) : (writeStatus s v).inputs = s.inputs := rfl
@[simp] theorem writeStatus_resp (v : Word) : (writeStatus s v).resp = s.resp := rfl
@[simp] theorem writeStatus_resetHeld (v : Word) : (writeStatus s v).resetHeld = s.resetHeld := rfl

@[simp] theorem accept_regs (i : Instr) : (accept i s).regs = s.regs := rfl
@[simp] theorem accept_busy (i : Instr) : (accept i s).busy = true := rfl
@[simp] theorem accept_done (i : Instr) : (accept i s).done = false := rfl
@[simp] theorem accept_code (i : Instr) : (accept i s).code = s.code := rfl
@[simp] theorem accept_ovr (i : Instr) : (accept i s).ovr = s.ovr := rfl
@[simp] theorem accept_drawCnt (i : Instr) : (accept i s).drawCnt = 0 := rfl
@[simp] theorem accept_phase (i : Instr) : (accept i s).phase = .busy i.opcode i.rd (operandA s i) (operandB s i) .compute := rfl
@[simp] theorem accept_entPending (i : Instr) : (accept i s).entPending = s.entPending := rfl
@[simp] theorem accept_datapath (i : Instr) : (accept i s).datapath = s.datapath := rfl
@[simp] theorem accept_inputs (i : Instr) : (accept i s).inputs = s.inputs := rfl
@[simp] theorem accept_resp (i : Instr) : (accept i s).resp = s.resp := rfl
@[simp] theorem accept_resetHeld (i : Instr) : (accept i s).resetHeld = s.resetHeld := rfl

@[simp] theorem acceptIllegal_regs : (acceptIllegal s).regs = s.regs := rfl
@[simp] theorem acceptIllegal_busy : (acceptIllegal s).busy = s.busy := rfl
@[simp] theorem acceptIllegal_done : (acceptIllegal s).done = true := rfl
@[simp] theorem acceptIllegal_code : (acceptIllegal s).code = .illegal := rfl
@[simp] theorem acceptIllegal_ovr : (acceptIllegal s).ovr = s.ovr := rfl
@[simp] theorem acceptIllegal_drawCnt : (acceptIllegal s).drawCnt = 0 := rfl
@[simp] theorem acceptIllegal_phase : (acceptIllegal s).phase = s.phase := rfl
@[simp] theorem acceptIllegal_entPending : (acceptIllegal s).entPending = s.entPending := rfl
@[simp] theorem acceptIllegal_datapath : (acceptIllegal s).datapath = s.datapath := rfl
@[simp] theorem acceptIllegal_inputs : (acceptIllegal s).inputs = s.inputs := rfl
@[simp] theorem acceptIllegal_resp : (acceptIllegal s).resp = s.resp := rfl
@[simp] theorem acceptIllegal_resetHeld : (acceptIllegal s).resetHeld = s.resetHeld := rfl

@[simp] theorem requestDraw_regs (op : Opcode) (rd : RegIdx) (a b : Word) : (requestDraw op rd a b s).regs = s.regs := rfl
@[simp] theorem requestDraw_busy (op : Opcode) (rd : RegIdx) (a b : Word) : (requestDraw op rd a b s).busy = s.busy := rfl
@[simp] theorem requestDraw_done (op : Opcode) (rd : RegIdx) (a b : Word) : (requestDraw op rd a b s).done = s.done := rfl
@[simp] theorem requestDraw_code (op : Opcode) (rd : RegIdx) (a b : Word) : (requestDraw op rd a b s).code = s.code := rfl
@[simp] theorem requestDraw_ovr (op : Opcode) (rd : RegIdx) (a b : Word) : (requestDraw op rd a b s).ovr = s.ovr := rfl
@[simp] theorem requestDraw_drawCnt (op : Opcode) (rd : RegIdx) (a b : Word) : (requestDraw op rd a b s).drawCnt = s.drawCnt := rfl
@[simp] theorem requestDraw_phase (op : Opcode) (rd : RegIdx) (a b : Word) : (requestDraw op rd a b s).phase = .busy op rd a b .awaitDraw := rfl
@[simp] theorem requestDraw_entPending (op : Opcode) (rd : RegIdx) (a b : Word) : (requestDraw op rd a b s).entPending = true := rfl
@[simp] theorem requestDraw_datapath (op : Opcode) (rd : RegIdx) (a b : Word) : (requestDraw op rd a b s).datapath = s.datapath := rfl
@[simp] theorem requestDraw_inputs (op : Opcode) (rd : RegIdx) (a b : Word) : (requestDraw op rd a b s).inputs = s.inputs := rfl
@[simp] theorem requestDraw_resp (op : Opcode) (rd : RegIdx) (a b : Word) : (requestDraw op rd a b s).resp = s.resp := rfl
@[simp] theorem requestDraw_resetHeld (op : Opcode) (rd : RegIdx) (a b : Word) : (requestDraw op rd a b s).resetHeld = s.resetHeld := rfl

@[simp] theorem countWord_regs : (countWord s).regs = s.regs := rfl
@[simp] theorem countWord_busy : (countWord s).busy = s.busy := rfl
@[simp] theorem countWord_done : (countWord s).done = s.done := rfl
@[simp] theorem countWord_code : (countWord s).code = s.code := rfl
@[simp] theorem countWord_ovr : (countWord s).ovr = s.ovr := rfl
@[simp] theorem countWord_drawCnt : (countWord s).drawCnt = bumpDrawCnt s.drawCnt := rfl
@[simp] theorem countWord_phase : (countWord s).phase = s.phase := rfl
@[simp] theorem countWord_entPending : (countWord s).entPending = false := rfl
@[simp] theorem countWord_datapath : (countWord s).datapath = s.datapath := rfl
@[simp] theorem countWord_inputs : (countWord s).inputs = s.inputs := rfl
@[simp] theorem countWord_resp : (countWord s).resp = s.resp := rfl
@[simp] theorem countWord_resetHeld : (countWord s).resetHeld = s.resetHeld := rfl

@[simp] theorem busError_regs : (busError s).regs = s.regs := rfl
@[simp] theorem busError_busy : (busError s).busy = s.busy := rfl
@[simp] theorem busError_done : (busError s).done = s.done := rfl
@[simp] theorem busError_code : (busError s).code = s.code := rfl
@[simp] theorem busError_ovr : (busError s).ovr = s.ovr := rfl
@[simp] theorem busError_drawCnt : (busError s).drawCnt = s.drawCnt := rfl
@[simp] theorem busError_phase : (busError s).phase = s.phase := rfl
@[simp] theorem busError_entPending : (busError s).entPending = s.entPending := rfl
@[simp] theorem busError_datapath : (busError s).datapath = s.datapath := rfl
@[simp] theorem busError_inputs : (busError s).inputs = s.inputs := rfl
@[simp] theorem busError_resp : (busError s).resp = some .busError := rfl
@[simp] theorem busError_resetHeld : (busError s).resetHeld = s.resetHeld := rfl

@[simp] theorem resetBlock_regs : (resetBlock s).regs = State.reset.regs := rfl
@[simp] theorem resetBlock_busy : (resetBlock s).busy = State.reset.busy := rfl
@[simp] theorem resetBlock_done : (resetBlock s).done = State.reset.done := rfl
@[simp] theorem resetBlock_code : (resetBlock s).code = State.reset.code := rfl
@[simp] theorem resetBlock_ovr : (resetBlock s).ovr = State.reset.ovr := rfl
@[simp] theorem resetBlock_drawCnt : (resetBlock s).drawCnt = State.reset.drawCnt := rfl
@[simp] theorem resetBlock_phase : (resetBlock s).phase = State.reset.phase := rfl
@[simp] theorem resetBlock_entPending : (resetBlock s).entPending = State.reset.entPending := rfl
@[simp] theorem resetBlock_datapath : (resetBlock s).datapath = State.reset.datapath := rfl
@[simp] theorem resetBlock_inputs : (resetBlock s).inputs = s.inputs := rfl
@[simp] theorem resetBlock_resp : (resetBlock s).resp = State.reset.resp := rfl
@[simp] theorem resetBlock_resetHeld : (resetBlock s).resetHeld = State.reset.resetHeld := rfl

@[simp] theorem complete_regs (rd : RegIdx) (c : Completion) : (complete rd c s).regs = (c.write rd s).regs := rfl
@[simp] theorem complete_busy (rd : RegIdx) (c : Completion) : (complete rd c s).busy = false := rfl
@[simp] theorem complete_done (rd : RegIdx) (c : Completion) : (complete rd c s).done = true := rfl
@[simp] theorem complete_code (rd : RegIdx) (c : Completion) : (complete rd c s).code = c.code := rfl
@[simp] theorem complete_ovr (rd : RegIdx) (c : Completion) : (complete rd c s).ovr = s.ovr := by cases c <;> rfl
@[simp] theorem complete_drawCnt (rd : RegIdx) (c : Completion) : (complete rd c s).drawCnt = s.drawCnt := by cases c <;> rfl
@[simp] theorem complete_phase (rd : RegIdx) (c : Completion) : (complete rd c s).phase = .idle := rfl
@[simp] theorem complete_entPending (rd : RegIdx) (c : Completion) : (complete rd c s).entPending = s.entPending := by cases c <;> rfl
@[simp] theorem complete_datapath (rd : RegIdx) (c : Completion) : (complete rd c s).datapath = s.datapath := by cases c <;> rfl
@[simp] theorem complete_inputs (rd : RegIdx) (c : Completion) : (complete rd c s).inputs = s.inputs := by cases c <;> rfl
@[simp] theorem complete_resp (rd : RegIdx) (c : Completion) : (complete rd c s).resp = s.resp := by cases c <;> rfl
@[simp] theorem complete_resetHeld (rd : RegIdx) (c : Completion) : (complete rd c s).resetHeld = s.resetHeld := by cases c <;> rfl

@[simp] theorem write_ok (v : Word) (rd : RegIdx) : Completion.write (.ok v) rd s = writeReg s rd v := rfl
@[simp] theorem write_noInverse (rd : RegIdx) : Completion.write .noInverse rd s = s := rfl
@[simp] theorem write_domain (rd : RegIdx) : Completion.write .domain rd s = s := rfl

end Sys2Proof.Machine
end

