-- ==== Sys2Proof/Laws/Engine.lean ====
section
/-! SUPPORT. What the shared operations of the engine can do, said once: an inversion lemma for each. -/

namespace Sys2Proof.Machine

/-- Every meaning is the issue of its command. -/
theorem exec_eq_issue (i : Instr) (s : State) : exec i s = .next (issue i s) := by
  cases i <;> rfl

/-- A command issued to an idle block is accepted, and that is the whole step. -/
theorem exec_idle (i : Instr) {s : State} (h : s.busy = false) : exec i s = .next (accept i s) := by
  rw [exec_eq_issue, issue, if_neg (by simp [h])]

/-- A command issued to a busy block is discarded. -/
theorem exec_busy (i : Instr) {s : State} (h : s.busy = true) : exec i s = .next (overrun s) := by
  rw [exec_eq_issue, issue, if_pos h]

/-- The two ends of a step of the engine. -/
theorem perform_cases (op : Opcode) (rd : RegIdx) (a b : Word) (o : Outturn) (s : State) :
    (∃ c, o.action = .complete c ∧ perform op rd a b o s = complete rd c { s with datapath := o.datapath }) ∨
    (o.action = .draw ∧ perform op rd a b o s = requestDraw op rd a b { s with datapath := o.datapath }) := by
  obtain ⟨dp, act⟩ := o
  cases act with
  | complete c => exact .inl ⟨c, rfl, rfl⟩
  | draw => exact .inr ⟨rfl, rfl⟩

/-- The engine's turn: its step on a command in Compute, and nothing otherwise. -/
theorem engineStep_cases (s : State) :
    (∃ op rd a b, s.phase = .busy op rd a b .compute ∧ engineStep s = perform op rd a b (engineExec op a b s.datapath) s) ∨
    ((∀ op rd a b, s.phase ≠ .busy op rd a b .compute) ∧ engineStep s = s) := by
  cases h : s.phase with
  | idle => exact .inr ⟨by simp, by simp [engineStep, h]⟩
  | busy op rd a b st =>
    cases st with
    | compute => exact .inl ⟨op, rd, a, b, rfl, by simp [engineStep, h]⟩
    | awaitDraw => exact .inr ⟨by simp, by simp [engineStep, h]⟩

/-- A delivery: the word goes to a waiting command that draws. -/
theorem deliverWord_some {w : Half} {s t : State} (h : deliverWord w s = some t) :
    ∃ op rd a b o, s.phase = .busy op rd a b .awaitDraw ∧ onWord op a w s.datapath = some o ∧ t = perform op rd a b o (countWord s) := by
  cases hp : s.phase with
  | idle => simp [deliverWord, hp] at h
  | busy op rd a b st =>
    cases st with
    | compute => simp [deliverWord, hp] at h
    | awaitDraw =>
      cases ho : onWord op a w s.datapath with
      | none => simp [deliverWord, hp, ho] at h
      | some o => exact ⟨op, rd, a, b, o, rfl, ho, by simpa [deliverWord, hp, ho] using h.symm⟩

/-- A word never fails a command: onWord completes OK with the word, or draws again. -/
theorem onWord_action {op : Opcode} {a : Word} {w : Half} {dp : Datapath} {o : Outturn} (h : onWord op a w dp = some o) :
    o.action = .complete (.ok (widen w)) ∨ o.action = .draw := by
  cases op <;> simp only [onWord, Option.some.injEq, reduceCtorEq] at h
  · subst h; simp only [genpOnWord]; split <;> simp
  · subst h; simp only [seleOnWord]; split
    · simp only; split <;> simp
    · simp

end Sys2Proof.Machine
end

