-- ==== Sys2Proof/Laws/Run.lean ====
section
/-! SUPPORT. A command over the schedule: runs of steps, the turns before its engine step, that step, and the words it rejects. -/

namespace Sys2Proof.Machine

/-- The engine's step does not depend on the schedule. -/
theorem engineStep_inputs (s : State) (l : List Event) : engineStep { s with inputs := l } = { engineStep s with inputs := l } := by
  obtain ⟨regs, busy, done, code, ovr, drawCnt, phase, pend, dp, inputs, resp, held⟩ := s
  cases phase with
  | idle => rfl
  | busy op rd a b st =>
    cases st with
    | awaitDraw => rfl
    | compute =>
      simp only [engineStep, perform]
      split
      · rename_i c _; cases c <;> rfl
      · rfl

/-- The engine has a step only in Compute. -/
theorem engineStep_of_not_compute {s : State} (h : ∀ op rd a b, s.phase ≠ .busy op rd a b .compute) : engineStep s = s := by
  rcases engineStep_cases s with ⟨op, rd, a, b, h1, _⟩ | ⟨_, h2⟩
  · exact absurd h1 (h _ _ _ _)
  · exact h2

/-- A step with a turn scheduled takes that turn. -/
theorem step_cons {s : State} {e : Event} {rest : List Event} (h : s.inputs = e :: rest) : step s = takeTurn e { s with inputs := rest } := by
  simp [step, h]

/-- A step that is the engine's turn, scheduled or at the end of the schedule. -/
theorem step_engineTurn {s : State} {rest : List Event} (h : engineTurn s.inputs = some rest) :
    step s = .next (engineStep { s with inputs := rest }) := by
  cases hl : s.inputs with
  | nil =>
    rw [hl] at h
    simp only [engineTurn, Option.some.injEq] at h
    subst h
    have : ({ s with inputs := [] } : State) = s := by rw [← hl]
    simp [step, hl, quietTurn, this]
  | cons e l =>
    rw [hl] at h
    cases e <;> simp only [engineTurn, Option.some.injEq, reduceCtorEq] at h
    subst h
    exact step_cons hl

/-- The step on a word offered with no request outstanding: it is discarded. -/
theorem step_unrequested {s : State} {w : Half} {rest : List Event} (h : s.inputs = .deliver w :: rest) (he : s.entPending = false) :
    step s = .next { s with inputs := rest } := by
  rw [step_cons h]; simp [takeTurn, entropyTurn, he]

/-- The step on a host's read, with reset released: only the response and the schedule change. -/
theorem step_read {s : State} {r : ReadAccess} {rest : List Event} (h : s.inputs = .hostRead r :: rest) (hr : s.resetHeld = false) :
    ∃ v, step s = .next { s with inputs := rest, resp := v } := by
  rw [step_cons h]
  simp only [takeTurn, hr, hostRead, busError, Bool.false_eq_true, if_false]
  split <;> exact ⟨_, rfl⟩

theorem runSteps_one {s t : State} (h : step s = .next t) (n : Nat) : runSteps (n + 1) s = runSteps n t := by
  simp [runSteps, h]

/-- A run of m + n steps is a run of m steps and then one of n. -/
theorem runSteps_add {m n : Nat} : ∀ {s t : State}, runSteps m s = .next t → runSteps (m + n) s = runSteps n t := by
  induction m with
  | zero => intro s t h; simp only [runSteps, Host.Outcome.next.injEq] at h; simp [h]
  | succ m ih =>
    intro s t h
    rw [Nat.succ_add]
    simp only [runSteps] at h ⊢
    split at h
    · exact ih h
    · cases h
    · cases h

/-- The host's reads and unrequested words change the response and the schedule only. -/
theorem runSteps_polls (tail : List Event) (polls : List Event) : ∀ {s : State}, PollsOnly polls → s.entPending = false → s.resetHeld = false →
    s.inputs = polls ++ tail →
    ∃ v, runSteps polls.length s = .next { s with inputs := tail, resp := v } ∧ ((∀ r, .hostRead r ∉ polls) → v = s.resp) := by
  induction polls with
  | nil => intro s _ _ _ h; exact ⟨s.resp, by simp only [List.nil_append] at h; simp [runSteps, ← h], fun _ => rfl⟩
  | cons e l ih =>
    intro s hp he hr h
    rw [List.cons_append] at h
    have hl : PollsOnly l := fun x hx => hp x (List.mem_cons_of_mem _ hx)
    rcases hp e (List.mem_cons_self ..) with ⟨r, rfl⟩ | ⟨w, rfl⟩
    · obtain ⟨v, hv⟩ := step_read h hr
      obtain ⟨v', hv', _⟩ := ih (s := { s with inputs := l ++ tail, resp := v }) hl he hr rfl
      exact ⟨v', (runSteps_one hv _).trans hv', fun hn => absurd (List.mem_cons_self ..) (hn r)⟩
    · obtain ⟨v', hv', hk⟩ := ih (s := { s with inputs := l ++ tail }) hl he hr rfl
      exact ⟨v', (runSteps_one (step_unrequested h he) _).trans hv', fun hn => hk fun r hm => hn r (List.mem_cons_of_mem _ hm)⟩

/-- An idle block has no request outstanding. -/
theorem State.Inv.idle_not_pending {s : State} (hi : s.Inv) (hb : s.busy = false) : s.entPending = false := by
  have h := hi.busy_iff
  rw [hi.pending_iff]
  rw [hb] at h
  cases hp : s.phase with
  | idle => rfl
  | busy => rw [hp] at h; simp [Phase.isBusy] at h

/-- A completion ends the command in progress, whatever the datapath, the schedule and the response are. -/
theorem complete_ends (s : State) (rd : RegIdx) (c : Completion) (h : s.entPending = false) : EndsWith s (complete rd c s) rd c s.drawCnt := by
  refine ⟨?_, ?_, ?_, rfl, rfl, rfl, rfl, ?_, ?_, ?_, ?_⟩
  · rintro v rfl; simp [complete, Completion.write, readReg, writeReg]
  · intro hc
    cases c with
    | ok v => exact absurd rfl (hc v)
    | noInverse => rfl
    | domain => rfl
  · intro k hk
    cases c with
    | ok v => exact readReg_writeReg_other _ _ hk
    | noInverse => rfl
    | domain => rfl
  all_goals simp [h]

/-- A command accepted by a block that is ready for it comes to the engine's turn as it was accepted. -/
theorem ready_accepts {s : State} {polls rest : List Event} (h : ReadyFor s polls rest) (i : Instr) :
    ∃ v, exec i s = .next (accept i s) ∧ (∀ n, runSteps (polls.length + 1 + n) (accept i s) =
        runSteps n (engineStep { accept i s with inputs := rest, resp := v })) ∧ ((∀ r, .hostRead r ∉ polls) → v = s.resp) := by
  obtain ⟨tail, hs, ht⟩ := h.schedule
  obtain ⟨v, hv, hk⟩ := runSteps_polls tail polls (s := accept i s) h.pollsOnly (h.inv.idle_not_pending h.idle) h.released hs
  refine ⟨v, exec_idle i h.idle, fun n => ?_, hk⟩
  have he : step { accept i s with inputs := tail, resp := v } = .next (engineStep { accept i s with inputs := rest, resp := v }) :=
    step_engineTurn (s := { accept i s with inputs := tail, resp := v }) ht
  rw [Nat.add_assoc, runSteps_add hv, Nat.add_comm, runSteps_one he]

/-- A command whose first engine step completes, issued to a block that is ready for it, ends there. -/
theorem exec_ends {s : State} {i : Instr} {polls rest : List Event} {c : Completion} (h : ReadyFor s polls rest)
    (hc : (engineExec i.opcode (operandA s i) (operandB s i) s.datapath).action = .complete c) :
    ∃ t u, exec i s = .next t ∧ runSteps (polls.length + 1) t = .next u ∧ Passed s u polls rest ∧ EndsWith s u i.rd c 0 := by
  obtain ⟨v, h1, h2, h3⟩ := ready_accepts h i
  have hstep : engineStep { accept i s with inputs := rest, resp := v } = complete i.rd c { accept i s with
      inputs := rest, resp := v, datapath := (engineExec i.opcode (operandA s i) (operandB s i) s.datapath).datapath } := by
    simp [engineStep, perform, hc]
  have he := complete_ends { accept i s with
      inputs := rest, resp := v, datapath := (engineExec i.opcode (operandA s i) (operandB s i) s.datapath).datapath } i.rd c
      (h.inv.idle_not_pending h.idle)
  refine ⟨_, _, h1, h2 0, ⟨?_, ?_⟩, ?_⟩ <;> rw [hstep]
  · simp
  · simpa using h3
  · exact ⟨he.result, he.failed, he.others, he.code, he.done, he.busy, he.phase, he.pending, he.draws, he.ovr, he.held⟩

/-- A command whose first engine step draws, issued to a block that is ready for it, waits there with no word counted. -/
theorem exec_waits {s : State} {i : Instr} {polls rest : List Event} (h : ReadyFor s polls rest)
    (hc : engineExec i.opcode (operandA s i) (operandB s i) s.datapath = ⟨s.datapath, .draw⟩) :
    ∃ t u, exec i s = .next t ∧ (∀ n, runSteps (polls.length + 1 + n) t = runSteps n u) ∧ Passed s u polls rest ∧ WaitsIn s u i (countOf 0) := by
  obtain ⟨v, h1, h2, h3⟩ := ready_accepts h i
  have hstep : engineStep { accept i s with inputs := rest, resp := v } =
      requestDraw i.opcode i.rd (operandA s i) (operandB s i) { accept i s with inputs := rest, resp := v } := by
    simp [engineStep, perform, hc]
  refine ⟨_, _, h1, h2, ⟨?_, ?_⟩, ?_⟩ <;> rw [hstep]
  · simp
  · simpa using h3
  · constructor <;> simp [operandA, operandB, countOf]

/-- DRAWCNT counts one more word, up to its largest value. -/
theorem bumpDrawCnt_countOf (n : Nat) : bumpDrawCnt (countOf n) = countOf (n + 1) := by
  unfold bumpDrawCnt countOf
  split <;> (apply BitVec.eq_of_toNat_eq; simp_all [← BitVec.toNat_inj]; omega)

@[simp] theorem wordCount_nil : wordCount [] = 0 := rfl

@[simp] theorem wordCount_deliver (c : Half) (l : List Event) : wordCount (.deliver c :: l) = wordCount l + 1 := rfl

@[simp] theorem wordCount_engine (l : List Event) : wordCount (.engine :: l) = wordCount l := rfl

@[simp] theorem wordCount_hostRead (r : ReadAccess) (l : List Event) : wordCount (.hostRead r :: l) = wordCount l := rfl

/-- The turns of a stretch of the schedule that a waiting command rejects leave it waiting, with its words counted. -/
theorem runSteps_rejects {i : Instr} {s₀ : State} {P : Half → Prop}
    (hP : ∀ c dp, P c → ∃ o, onWord i.opcode (readReg s₀ i.rs1) c dp = some o ∧ o.action = .draw) (hr : s₀.resetHeld = false) (tail : List Event)
    (pre : List Event) :
    ∀ {n : Nat} {s : State}, WaitsIn s₀ s i (countOf n) → OffersOnly P pre → s.inputs = pre ++ tail →
      ∃ u, runSteps pre.length s = .next u ∧ WaitsIn s₀ u i (countOf (n + wordCount pre)) ∧ Passed s u pre tail := by
  induction pre with
  | nil => intro n s hs _ h; exact ⟨s, rfl, by simpa using hs, h, fun _ => rfl⟩
  | cons e l ih =>
    intro n s hs ho h
    rw [List.cons_append] at h
    have hl : OffersOnly P l := fun e he => ho e (List.mem_cons_of_mem _ he)
    have key : ∀ (m : Nat) (s' : State), step s = .next s' → WaitsIn s₀ s' i (countOf m) → s'.inputs = l ++ tail →
        ((∀ r, .hostRead r ∉ e :: l) → s'.resp = s.resp) → m + wordCount l = n + wordCount (e :: l) →
        ∃ u, runSteps (l.length + 1) s = .next u ∧ WaitsIn s₀ u i (countOf (n + wordCount (e :: l))) ∧ Passed s u (e :: l) tail := by
      intro m s' hstep hw hin hresp hm
      obtain ⟨u, h1, h2, h3⟩ := ih hw hl hin
      exact ⟨u, (runSteps_one hstep _).trans h1, hm ▸ h2, h3.schedule,
        fun hn => (h3.resp fun r hr => hn r (List.mem_cons_of_mem _ hr)).trans (hresp hn)⟩
    rcases ho e (List.mem_cons_self ..) with rfl | ⟨r, rfl⟩ | ⟨c, rfl, hc⟩
    · refine key n { s with inputs := l ++ tail } ?_ ⟨hs.1, hs.2, hs.3, hs.4, hs.5, hs.6, hs.7, hs.8, hs.9⟩ rfl (fun _ => rfl) (by simp)
      rw [step_cons h]
      have hstay : engineStep { s with inputs := l ++ tail } = { s with inputs := l ++ tail } :=
        engineStep_of_not_compute (by simp [hs.phase])
      simp only [takeTurn, hstay]
    · obtain ⟨v, hv⟩ := step_read h (hs.held.trans hr)
      exact key n _ hv ⟨hs.1, hs.2, hs.3, hs.4, hs.5, hs.6, hs.7, hs.8, hs.9⟩ rfl
        (fun hn => absurd (List.mem_cons_self ..) (hn r)) (by simp)
    · obtain ⟨o, ho1, ho2⟩ := hP c s.datapath hc
      have hstep : step s = .next (requestDraw i.opcode i.rd (readReg s₀ i.rs1) (readReg s₀ i.rs2)
          { countWord { s with inputs := l ++ tail } with datapath := o.datapath }) := by
        rw [step_cons h]
        simp [takeTurn, entropyTurn, hs.pending, deliverWord, hs.phase, ho1, perform, ho2]
      refine key (n + 1) _ hstep ?_ rfl (fun _ => rfl) (by rw [wordCount_deliver]; omega)
      constructor <;> simp [hs.busy, hs.done, hs.regs, hs.code, hs.ovr, hs.held, hs.draws, bumpDrawCnt_countOf]

end Sys2Proof.Machine
end

