-- ==== Sys2Proof/Laws/HostProgram.lean ====
section
/-! SUPPORT. What a host's turn does to a session: a plain access is one step of the block, and `wait` reads STATUS until DONE = 1 (30_encoding.md R62). -/

namespace Sys2Proof.Machine

/-- STATUS as the host reads it has DONE in bit 1. -/
theorem statusWord_done (s : State) : (statusWord s).getLsbD 1 = s.done := by
  obtain ⟨regs, busy, done, code, ovr, drawCnt, phase, pend, dp, inputs, resp, held⟩ := s
  simp only [statusWord]
  cases busy <;> cases done <;> cases code <;> cases ovr <;> decide

/-- The access of `wait`, with reset released: STATUS comes back and nothing else changes. -/
theorem takeTurn_poll {s : State} (hr : s.resetHeld = false) : takeTurn pollAccess s = .next { s with resp := some (.data (statusWord s)) } := by
  have ht : takeTurn pollAccess s = if s.resetHeld then .refused .accessDuringReset else .next (hostRead { off := 4, size := 4 } s) := rfl
  rw [ht, if_neg (by simp [hr])]
  rfl

/-- A host's turn with an access is the step of the block in which that access is the next turn. -/
theorem takeTurn_eq_step (e : Event) (s : State) : takeTurn e s = step { s with inputs := e :: s.inputs } :=
  (step_cons (s := { s with inputs := e :: s.inputs }) rfl).symm

/-- A turn of a host that waits: it goes on if DONE = 1, else it stands at the loop; the block only answers the read. -/
theorem hostTurn_wait {h : Session} {rest : List HostAct} (hp : h.program = .pollUntilDone :: rest) (hr : h.block.resetHeld = false) :
    h.hostTurn = .next
      { program := if h.block.done then rest else h.program
        block := { h.block with resp := some (.data (statusWord h.block)) } } := by
  simp only [Session.hostTurn, hp, HostAct.event, takeTurn_poll hr, HostAct.isOver, Option.any_some, pollEnds, statusWord_done]

/-- Any number of turns of a host that waits, while DONE = 0: it still waits, and no register of the block has changed. -/
theorem run_wait (n : Nat) : ∀ {h : Session} {rest : List HostAct}, h.program = .pollUntilDone :: rest → h.block.resetHeld = false →
    h.block.done = false →
    ∃ v, h.run (List.replicate n .host) = .next { h with block := { h.block with resp := v } } := by
  induction n with
  | zero => intro h _ _ _ _; exact ⟨h.block.resp, rfl⟩
  | succ n ih =>
    intro h rest hp hr hd
    have ht := hostTurn_wait hp hr
    rw [hd] at ht
    obtain ⟨v, hv⟩ := ih (h := { program := h.program, block := { h.block with resp := some (.data (statusWord h.block)) } }) hp hr hd
    refine ⟨v, ?_⟩
    rw [List.replicate_succ]
    simpa only [Session.run, ht, Bool.false_eq_true, if_false] using hv

/-- `wait` is over in the first turn of the host that finds DONE = 1. -/
theorem run_wait_done {h : Session} {rest : List HostAct} (hp : h.program = .pollUntilDone :: rest) (hr : h.block.resetHeld = false)
    (hd : h.block.done = true) :
    h.run [.host] = .next { program := rest, block := { h.block with resp := some (.data (statusWord h.block)) } } := by
  simp [Session.run, hostTurn_wait hp hr, hd]

end Sys2Proof.Machine
end

