-- ==== Sys2Proof/Laws/PerInstr.lean ====
section
/-! SUPPORT. Facts about every instruction as syntax, one lemma per constructor. -/

namespace Sys2Proof.Laws.EncodeFields

open Sys2Proof

/-- The word of an instruction has its opcode and register fields at the bits of R52, and zeros elsewhere. -/
def Statement (i : Instr) : Prop :=
  fieldsOf (encode i) = ⟨i.opcode.bits, i.rd, 0, i.rs1, 0, i.rs2, 0⟩

theorem genp (rd : RegIdx) : Statement (.genp rd) := fieldsOf_encode _
theorem tot (rd rs1 rs2 : RegIdx) : Statement (.tot rd rs1 rs2) := fieldsOf_encode _
theorem sele (rd rs1 : RegIdx) : Statement (.sele rd rs1) := fieldsOf_encode _
theorem inv (rd rs1 rs2 : RegIdx) : Statement (.inv rd rs1 rs2) := fieldsOf_encode _
theorem gcd (rd rs1 rs2 : RegIdx) : Statement (.gcd rd rs1 rs2) := fieldsOf_encode _
theorem isprime (rd rs1 : RegIdx) : Statement (.isprime rd rs1) := fieldsOf_encode _

end Sys2Proof.Laws.EncodeFields
end

