-- ==== Sys2Proof/Laws/Step.lean ====
section
/-! SUPPORT. The inversion of a step: everything a turn of each agent can do, said once. -/

namespace Sys2Proof.Machine

/-- What a command in progress does in its turn: nothing, its engine step, or the judgement of a word. -/
inductive CommandMove (s t : State) (rest : List Event) : Prop where
  | stays (h : t = { s with inputs := rest })
  | engine (op : Opcode) (rd : RegIdx) (a b : Word) (hp : s.phase = .busy op rd a b .compute)
      (h : t = perform op rd a b (engineExec op a b s.datapath) { s with inputs := rest })
  | word (w : Half) (op : Opcode) (rd : RegIdx) (a b : Word) (o : Outturn) (hp : s.phase = .busy op rd a b .awaitDraw)
      (ho : onWord op a w s.datapath = some o) (h : t = perform op rd a b o (countWord { s with inputs := rest }))

/-- What a host's write does. -/
inductive WriteMove (s t : State) (a : WriteAccess) (rest : List Event) : Prop where
  | ignored (v : Option Response) (h : t = { s with inputs := rest, resp := v })
  | accepted (hw : a.wellFormed = true) (ht : targetOf a.off = .cmd) (hb : s.busy = false) (i : Instr) (hd : decode a.data = .legal i)
      (h : t = accept i { s with inputs := rest, resp := some .written })
  | illegal (hw : a.wellFormed = true) (ht : targetOf a.off = .cmd) (hb : s.busy = false) (why : Reject) (hd : decode a.data = .illegal why)
      (h : t = acceptIllegal { s with inputs := rest, resp := some .written })
  | discarded (hw : a.wellFormed = true) (ht : targetOf a.off = .cmd ∨ ∃ k, targetOf a.off = .reg k) (hb : s.busy = true)
      (h : t = overrun { s with inputs := rest, resp := some .written })
  | status (hw : a.wellFormed = true) (ht : targetOf a.off = .status) (h : t = writeStatus { s with inputs := rest, resp := some .written } a.data)
  | operand (hw : a.wellFormed = true) (k : RegIdx) (ht : targetOf a.off = .reg k) (hb : s.busy = false)
      (h : t = writeReg { s with inputs := rest, resp := some .written } k a.data)

/-- What a step that answers a next state did. -/
inductive Move (s t : State) : Prop where
  | command (rest : List Event) (hs : CommandTurn s.inputs rest) (h : CommandMove s t rest)
  | read (r : ReadAccess) (rest : List Event) (v : Option Response) (hs : s.inputs = .hostRead r :: rest) (hr : s.resetHeld = false)
      (h : t = { s with inputs := rest, resp := v })
  | write (a : WriteAccess) (rest : List Event) (hs : s.inputs = .hostWrite a :: rest) (hr : s.resetHeld = false) (h : WriteMove s t a rest)
  | reset (rest : List Event) (hs : s.inputs = .reset :: rest) (h : t = resetBlock { s with inputs := rest })
  | hold (rest : List Event) (hs : s.inputs = .holdReset :: rest) (h : t = { resetBlock { s with inputs := rest } with resetHeld := true })
  | release (rest : List Event) (hs : s.inputs = .releaseReset :: rest) (h : t = { s with inputs := rest, resetHeld := false })

/-- The engine's turn, as a move of the command. -/
theorem engineStep_move (s : State) (rest : List Event) : CommandMove s (engineStep { s with inputs := rest }) rest := by
  rcases engineStep_cases { s with inputs := rest } with ⟨op, rd, a, b, h1, h2⟩ | ⟨_, h2⟩
  · exact .engine op rd a b h1 h2
  · exact .stays h2

/-- A host's write, by the register it names. -/
theorem hostWrite_move {s t : State} {a : WriteAccess} {rest : List Event} (h : hostWrite a { s with inputs := rest } = .next t) :
    WriteMove s t a rest := by
  unfold hostWrite at h
  split at h
  · rename_i hw
    cases ht : targetOf a.off with
    | cmd =>
      simp only [ht, writeTarget, writeCmd] at h
      cases hb : s.busy with
      | true =>
        refine .discarded hw (.inl ht) hb ?_
        cases hd : decode a.data with
        | legal i => rw [hd] at h; simp only [exec_busy i (s := { s with inputs := rest, resp := some .written }) hb] at h; cases h; rfl
        | illegal why => rw [hd] at h; simp only [if_pos hb] at h; cases h; rfl
      | false =>
        cases hd : decode a.data with
        | legal i =>
          rw [hd] at h; simp only [exec_idle i (s := { s with inputs := rest, resp := some .written }) hb] at h; cases h
          exact .accepted hw ht hb i hd rfl
        | illegal why => rw [hd] at h; simp only [if_neg (show ¬ s.busy = true by simp [hb])] at h; cases h; exact .illegal hw ht hb why hd rfl
    | status => simp only [ht, writeTarget] at h; cases h; exact .status hw ht rfl
    | drawCnt => simp only [ht, writeTarget] at h; cases h; exact .ignored _ rfl
    | reserved => simp only [ht, writeTarget] at h; cases h; exact .ignored _ rfl
    | reg k =>
      simp only [ht, writeTarget, writeOperand] at h
      cases hb : s.busy with
      | true => simp only [if_pos hb] at h; cases h; exact .discarded hw (.inr ⟨k, ht⟩) hb rfl
      | false => simp only [if_neg (show ¬ s.busy = true by simp [hb])] at h; cases h; exact .operand hw k ht hb rfl
  · cases h; exact .ignored _ rfl

/-- The inversion of a step. -/
theorem step_move {s t : State} (h : step s = .next t) : Move s t := by
  cases hl : s.inputs with
  | nil =>
    have he : engineTurn s.inputs = some [] := by rw [hl]; rfl
    rw [step_engineTurn he] at h
    cases h
    exact .command [] (.inl he) (engineStep_move s [])
  | cons e rest =>
    rw [step_cons hl] at h
    cases e with
    | hostRead r =>
      simp only [takeTurn] at h
      split at h
      · cases h
      · rename_i hr
        simp only [hostRead, busError] at h
        split at h <;> cases h <;> exact .read r rest _ hl (by simpa using hr) rfl
    | hostWrite a =>
      simp only [takeTurn] at h
      split at h
      · cases h
      · rename_i hr
        exact .write a rest hl (by simpa using hr) (hostWrite_move h)
    | engine => cases h; exact .command rest (.inl (by rw [hl]; rfl)) (engineStep_move s rest)
    | deliver w =>
      have hc : CommandTurn s.inputs rest := .inr ⟨w, hl⟩
      simp only [takeTurn, entropyTurn] at h
      split at h
      · split at h
        · rename_i t' ht
          cases h
          obtain ⟨op, rd, a, b, o, h1, h2, h3⟩ := deliverWord_some ht
          exact .command rest hc (.word w op rd a b o h1 h2 h3)
        · cases h
      · cases h; exact .command rest hc (.stays rfl)
    | reset => cases h; exact .reset rest hl rfl
    | holdReset => cases h; exact .hold rest hl rfl
    | releaseReset => cases h; exact .release rest hl rfl

end Sys2Proof.Machine
end

