-- ==== Sys2Proof/Tests/Slice0.lean ====
section
/-! SUPPORT. The model's own tests (expected results from 95_test_vectors.md and the rules' corner cases), the smoke test of WellFormed, and for every
statement with hypotheses a state and operands that meet them. -/

namespace Sys2Proof.Tests

open Sys2Proof Sys2Proof.Machine

/-! ## States -/

/-- An idle block with given registers and schedule. -/
def idleWith (regs : Vector Word 8) (inputs : List Event) : State :=
  { State.reset with regs := regs, inputs := inputs }

/-- A block whose command waits for a word. -/
def waitingWith (op : Opcode) (rd : RegIdx) (opA : Word) (inputs : List Event) : State :=
  { State.reset with busy := true, phase := .busy op rd opA 0 .awaitDraw, entPending := true, inputs := inputs }

/-- A block with an accepted command before its first engine step. -/
def acceptedWith (op : Opcode) (rd : RegIdx) (opA opB : Word) (inputs : List Event) : State :=
  { State.reset with busy := true, phase := .busy op rd opA opB .compute, inputs := inputs }

/-- The next state of an outcome, if it is one. -/
def nextOf : Host.Outcome State Fault Refusal → Option State
  | .next t => some t
  | .fault _ => none
  | .refused _ => none

/-- A register, STATUS and DRAWCNT after one step. -/
def after (s : State) (k : RegIdx) : Option (Word × Word × Word) :=
  (nextOf (step s)).map fun t => (readReg t k, statusWord t, t.drawCnt)

theorem idleWith_inv (regs : Vector Word 8) (inputs : List Event) : (idleWith regs inputs).Inv := by
  constructor <;> simp [idleWith, State.reset, Phase.isBusy, Phase.isWaiting, Phase.sound]

theorem waitingWith_inv (rd : RegIdx) (opA : Word) (inputs : List Event) : (waitingWith .genp rd opA inputs).Inv := by
  constructor <;> simp [waitingWith, State.reset, Phase.isBusy, Phase.isWaiting, Phase.sound, mayDraw]

theorem waitingSele_inv (rd : RegIdx) (opA : Word) (h : mayDraw .sele opA = true) (inputs : List Event) :
    (waitingWith .sele rd opA inputs).Inv := by
  constructor <;> simp [waitingWith, State.reset, Phase.isBusy, Phase.isWaiting, Phase.sound, h]

theorem acceptedWith_inv (op : Opcode) (rd : RegIdx) (a b : Word) (inputs : List Event) : (acceptedWith op rd a b inputs).Inv := by
  constructor <;> simp [acceptedWith, State.reset, Phase.isBusy, Phase.isWaiting, Phase.sound]

/-- An idle block is ready for a command: its polls, then the engine's turn, then the rest. -/
theorem idleWith_ready (regs : Vector Word 8) {polls tail rest : List Event} (hp : PollsOnly polls) (ht : engineTurn tail = some rest) :
    ReadyFor (idleWith regs (polls ++ tail)) polls rest :=
  ⟨idleWith_inv _ _, rfl, rfl, hp, tail, rfl, ht⟩

theorem pollsOnly_nil : PollsOnly [] := by simp [PollsOnly]

/-- The host polls STATUS, and a word comes that nobody asked for. -/
theorem pollsOnly_sample : PollsOnly [wordRead 4, .deliver 5] := by simp [PollsOnly, wordRead]

/-- SELE's test of a word, on numerals. -/
theorem acceptedBySele_iff {phi : Word} {c : Half} (n m : Nat) (hn : c.toNat = n) (hm : phi.toNat = m) :
    acceptedBySele phi c ↔ n.Prime ∧ n < m ∧ Nat.gcd n m = 1 := by
  subst hn hm; rfl

/-- GENP's test of a word, on numerals. -/
theorem rejectedByGenp_iff {c : Half} (n : Nat) (hn : c.toNat = n) : rejectedByGenp c ↔ ¬ n.Prime := by
  subst hn; rfl

/-! ## WellFormed: one ill-formed term for each check -/

theorem test_wellFormed_accepts : CommandFields.wellFormed ⟨0x4, 4, 0, 3, 0, 2, 0⟩ = true := by decide
theorem test_wellFormed_refuses_bit7 : CommandFields.reservedClear ⟨0x1, 0, 1, 0, 0, 0, 0⟩ = false := by decide
theorem test_wellFormed_refuses_bit11 : CommandFields.reservedClear ⟨0x1, 0, 0, 0, 1, 0, 0⟩ = false := by decide
theorem test_wellFormed_refuses_bit15 : CommandFields.reservedClear ⟨0x2, 0, 0, 0, 0, 0, 1⟩ = false := by decide
theorem test_wellFormed_refuses_opcode0 : CommandFields.opcodeAssigned ⟨0x0, 0, 0, 0, 0, 0, 0⟩ = false := by decide
theorem test_wellFormed_refuses_opcode7 : CommandFields.opcodeAssigned ⟨0x7, 0, 0, 0, 0, 0, 0⟩ = false := by decide
theorem test_wellFormed_refuses_genp_rs1 : CommandFields.unusedClear ⟨0x1, 0, 0, 1, 0, 0, 0⟩ = false := by decide
theorem test_wellFormed_refuses_sele_rs2 : CommandFields.unusedClear ⟨0x3, 0, 0, 0, 0, 1, 0⟩ = false := by decide
theorem test_wellFormed_refuses_whole :
    CommandFields.wellFormed ⟨0x1, 0, 1, 0, 0, 0, 0⟩ = false ∧ CommandFields.wellFormed ⟨0x7, 0, 0, 0, 0, 0, 0⟩ = false ∧
      CommandFields.wellFormed ⟨0x6, 0, 0, 0, 0, 7, 0⟩ = false := by decide

/-! ## Decoding: words written out from R52 and R56, and 95_test_vectors.md 2.1 -/

-- bits 31:15, RS2, bit 11, RS1, bit 7, RD, OP
theorem test_decode_genp : decode 0b00000000000000000_000_0_000_0_111_0001 = .legal (.genp 7) := by decide
theorem test_decode_tot : decode 0b00000000000000000_001_0_000_0_010_0010 = .legal (.tot 2 0 1) := by decide
theorem test_decode_sele : decode 0b00000000000000000_000_0_010_0_011_0011 = .legal (.sele 3 2) := by decide
theorem test_decode_inv : decode 0b00000000000000000_010_0_011_0_100_0100 = .legal (.inv 4 3 2) := by decide
theorem test_decode_gcd : decode 0b00000000000000000_010_0_011_0_101_0101 = .legal (.gcd 5 3 2) := by decide
theorem test_decode_isprime : decode 0b00000000000000000_000_0_000_0_110_0110 = .legal (.isprime 6 0) := by decide
theorem test_decode_all_fields_max : decode 0x00007772 = .legal (.tot 7 7 7) := by decide
theorem test_decode_opcode0 : decode 0x00000000 = .illegal .reservedOpcode := by decide
theorem test_decode_opcodeF : decode 0x0000000F = .illegal .reservedOpcode := by decide
theorem test_decode_bit11 : decode 0x00000801 = .illegal .reservedBits := by decide
theorem test_decode_bit31 : decode 0x80000005 = .illegal .reservedBits := by decide
theorem test_decode_genp_rs2 : decode 0x00001001 = .illegal .unusedField := by decide
theorem test_decode_isprime_rs2 : decode 0x00007006 = .illegal .unusedField := by decide
theorem test_decode_bytes : decodeBytes [0x44, 0x23, 0x00, 0x00] = .legal (.inv 4 3 2) := by decide
theorem test_decode_three_bytes : decodeBytes [0x44, 0x23, 0x00] = .illegal .wrongLength := by decide
theorem test_decodeTableWord : decodeTableWord 32 0x2344 = some (.inv 4 3 2) := by decide
theorem test_encode_inv : encode (.inv 4 3 2) = 0x00002344 := by decide
theorem test_assemble_inv : assembleLine "INV r4, r3, r2".toList = some (.inv 4 3 2) := by decide
theorem test_assemble_case_and_comment : assembleLine " genp R7 ; a prime".toList = some (.genp 7) := by decide

/-! ## One step of each command -/

-- R63, R65: acceptance latches x[RS1] and x[RS2], and the level of done_o falls
theorem test_accept :
    (nextOf (step (State.withFetchWord { idleWith #v[61, 53, 0, 0, 0, 0, 0, 0] [] with done := true, drawCnt := 5 } 32 0x1022))).map
      (fun t => (t.phase, statusWord t, t.drawCnt, t.doneO)) = some (.busy .tot 2 61 53 .compute, 0x1, 0, false) := by decide
-- R76: operands are latched, then the destination overwritten
theorem test_tot_alias :
    (nextOf (runSteps 2 (State.withFetchWord (idleWith #v[61, 0, 0, 0, 0, 0, 0, 0] []) 32 0x0002))).map (fun t => readReg t 0) = some 3600 := by
  decide
-- 95 2.4: (61, 53) gives 3120; (65535, 65535) gives the largest result
theorem test_tot : after (acceptedWith .tot 2 61 53 [.engine]) 2 = some (3120, 0x2, 0) := by decide
theorem test_tot_largest : after (acceptedWith .tot 2 65535 65535 []) 2 = some (0xFFFC0004, 0x2, 0) := by decide
-- 95 2.3: words 60, 61; and a word that is not prime
theorem test_genp : after { waitingWith .genp 0 0 [.deliver 61] with drawCnt := 1 } 0 = some (61, 0x2, 2) := by decide
theorem test_genp_stalls : after (waitingWith .genp 7 0 [.deliver 0]) 7 = some (0, 0x1, 1) := by decide
-- 95 2.5: φ = 3120 with words 3, 65521, 16, 17
theorem test_sele : after { waitingWith .sele 3 3120 [.deliver 17] with drawCnt := 3 } 3 = some (17, 0x2, 4) := by decide
theorem test_sele_rejects : after (waitingWith .sele 3 3120 [.deliver 65521]) 3 = some (0, 0x1, 1) := by decide
-- 95 2.7: (17, 3120) and (4, 8)
theorem test_inv : after (acceptedWith .inv 4 17 3120 [.engine]) 4 = some (2753, 0x2, 0) := by decide
theorem test_inv_none : after { acceptedWith .inv 2 4 8 [] with regs := #v[4, 8, 0xDEADBEEF, 0, 0, 0, 0, 0] } 2 = some (0xDEADBEEF, 0x6, 0) := by
  decide
-- 95 2.6: (65537, 0xFFFFFFFF), and the 46 iterations of (F(46), F(47))
theorem test_gcd : after (acceptedWith .gcd 2 65537 0xFFFFFFFF []) 2 = some (65537, 0x2, 0) := by decide
theorem test_gcd_longest : after (acceptedWith .gcd 2 1836311903 2971215073 []) 2 = some (1, 0x2, 0) := by decide
-- 95 2.2: 65521 is prime; 0x10000 is outside the domain
theorem test_isprime : after (acceptedWith .isprime 6 65521 0 []) 6 = some (1, 0x2, 0) := by decide
theorem test_isprime_domain : after (acceptedWith .isprime 6 0x10000 0 []) 6 = some (0, 0xA, 0) := by decide
-- R103's last row
theorem test_euclid_trace : extEuclid 17 3120 Datapath.reset.euclid = ⟨1, 0, 8, -367, 3120, 2, -17⟩ := by decide
-- 41 R82 and 95 2.2: 4 (the OR guard), 25 and 63001 (the inclusive bound), 49 (i + 2)
theorem test_isPrime16_rejects : isPrime16 4 = false ∧ isPrime16 25 = false ∧ isPrime16 49 = false ∧ isPrime16 63001 = false := by decide

/-! ## Illegal words, the window and reset -/

theorem test_illegal_word : after (State.withFetchWord (idleWith (Vector.replicate 8 0) []) 32 0x7) 0 = some (0, 0xE, 0) := by decide
-- 95 P2 step 8: GENP r7 again while busy after a DOMAIN
theorem test_overrun :
    ((nextOf (step { waitingWith .genp 7 0 [wordWrite 0x00 0x71] with code := .domain })).map statusWord) = some 0x19 := by decide
theorem test_operand_overrun :
    ((nextOf (step (waitingWith .genp 7 0 [wordWrite 0x24 5]))).map fun t => (readReg t 1, t.ovr)) = some (0, true) := by decide
theorem test_read_register :
    ((nextOf (step (idleWith #v[0, 0, 0, 0, 0, 0, 0, 0xFFFFFFFF] [wordRead 0x3C]))).map State.resp) = some (some (.data 0xFFFFFFFF)) := by decide
theorem test_partial_strobe :
    ((nextOf (step (idleWith (Vector.replicate 8 0) [.hostWrite ⟨0x00, 4, 1, 0b0001⟩]))).map fun t => (t.resp, t.busy)) =
      some (some .busError, false) := by decide
theorem test_clear_overrun :
    ((nextOf (step { idleWith (Vector.replicate 8 0) [wordWrite 0x04 0xFFFFFFFF] with ovr := true })).map statusWord) = some 0 := by decide
-- 95 2.9
theorem test_reset_event :
    ((nextOf (step { waitingWith .genp 7 0 [.reset] with regs := #v[1, 2, 3, 4, 5, 6, 7, 8], code := .domain, ovr := true, drawCnt := 3 })).map
      fun t => decide (t = State.reset)) = some true := by decide
theorem test_li_offset : (HostOp.li 7 1).expand = [.access (.hostWrite ⟨0x3C, 4, 1, 0b1111⟩)] := by decide

-- R62: `wait` reads again while DONE = 0, and ends on the read after the engine's step; `ld` then reads the result
theorem test_exec_polls :
    (match (Session.load [.exec (.tot 2 0 1), .ld 2] (idleWith #v[61, 53, 0, 0, 0, 0, 0, 0] [])).run [.host, .host] with
      | .next h => h.program | .fault _ => [] | .refused _ => []) = [.pollUntilDone, .access (wordRead 0x28)] := by decide
theorem test_exec_ends :
    (match (Session.load [.exec (.tot 2 0 1), .ld 2] (idleWith #v[61, 53, 0, 0, 0, 0, 0, 0] [])).run [.host, .host, .block, .host, .host] with
      | .next h => some (h.program, h.block.resp) | .fault _ => none | .refused _ => none) = some ([], some (.data 3120)) := by decide

/-! ## Witnesses of the statements' hypotheses -/

/-- Registers p = 61, q = 53, φ = 3120, e = 17. -/
abbrev sampleRegs : Vector Word 8 := #v[61, 53, 3120, 17, 0, 0, 65538, 2]

theorem witness_DecodeOfEncodeIsTheCommand : Instr.wellFormed (.inv 7 0 7) = true := by decide

theorem witness_LegalExactlyWhenOneRowMatches :
    (⟨.sele, 0x00000003, 0xFFFFF88F⟩ : EncodingRow) ∈ encodingRows ∧ EncodingRow.matches ⟨.sele, 0x00000003, 0xFFFFF88F⟩ 0x00000773 = true ∧
      decode 0x00000773 = .legal (.sele 7 7) := by decide

theorem witness_StepRunsTheDecodedCommand :
    (idleWith sampleRegs [wordWrite 0 0x1022]).inputs = .hostWrite (cmdWrite 0x1022) :: [] ∧ (cmdWrite 0x1022).wellFormed = true ∧
      (cmdWrite 0x1022).off = 0 ∧ (idleWith sampleRegs [wordWrite 0 0x1022]).resetHeld = false ∧ decode 0x1022 = .legal (.tot 2 0 1) := by decide

theorem witness_PlacedWordRunsNext : decodeTableWord 32 0x7775 = some (.gcd 7 7 7) := by decide

theorem witness_IdleOrWaitingEngineTakesNoStep :
    (∀ op rd a b, (waitingWith .genp 0 0 []).phase ≠ .busy op rd a b .compute) ∧ (waitingWith .genp 0 0 []).inputs = [] ∧
    (∀ op rd a b, (idleWith sampleRegs [.engine]).phase ≠ .busy op rd a b .compute) ∧ (idleWith sampleRegs [.engine]).inputs = [.engine] := by
  simp [waitingWith, idleWith, State.reset]

theorem witness_AcceptanceLatchesOperands : (idleWith sampleRegs [.deliver 5, wordRead 4]).busy = false := rfl

theorem witness_CommandWhileBusyIsDiscarded :
    (waitingWith .genp 7 0 [wordWrite 0 0]).busy = true ∧ (waitingWith .genp 7 0 [wordWrite 0 0]).inputs = [.hostWrite (cmdWrite 0)] ∧
      (cmdWrite 0).wellFormed = true ∧ (cmdWrite 0).off = 0 ∧ (waitingWith .genp 7 0 [wordWrite 0 0]).resetHeld = false := by decide

theorem witness_IllegalWordCompletesAtAcceptance :
    (idleWith sampleRegs [wordWrite 0 7]).busy = false ∧ (idleWith sampleRegs [wordWrite 0 7]).inputs = [.hostWrite (cmdWrite 7)] ∧
      (cmdWrite 7).wellFormed = true ∧ (cmdWrite 7).off = 0 ∧ (idleWith sampleRegs [wordWrite 0 7]).resetHeld = false ∧
      decode (cmdWrite 7).data = .illegal .reservedOpcode := by decide

/-- The engine's turn that completes OK, the same at the end of the schedule, the delivery that rejects, and the delivery that completes. -/
theorem witness_AcceptedCommandReadsNoRegister :
    (acceptedWith .tot 2 61 53 [.engine]).phase = .busy .tot 2 61 53 .compute ∧ CommandTurn (acceptedWith .tot 2 61 53 [.engine]).inputs [] ∧
    CommandTurn (acceptedWith .tot 2 61 53 []).inputs [] ∧
    ((nextOf (step (acceptedWith .tot 2 61 53 [.engine]))).map fun t => readReg t 2) = some 3120 ∧
    (waitingWith .genp 7 0 [.deliver 4]).phase = .busy .genp 7 0 0 .awaitDraw ∧ CommandTurn (waitingWith .genp 7 0 [.deliver 4]).inputs [] ∧
    ((nextOf (step (waitingWith .genp 7 0 [.deliver 4]))).map State.busy) = some true ∧
    ((nextOf (step (waitingWith .genp 7 0 [.deliver 5]))).map State.done) = some true :=
  ⟨rfl, .inl rfl, .inl rfl, by decide, rfl, .inr ⟨4, rfl⟩, by decide, by decide⟩

/-- TOT at both ends of its domain, polled before the engine moves. -/
theorem witness_TotWritesTheTotient :
    ReadyFor (idleWith #v[1, 65535, 0, 0, 0, 0, 0, 0] ([wordRead 4, .deliver 5] ++ [.engine])) [wordRead 4, .deliver 5] [] ∧
      1 ≤ (readReg (idleWith #v[1, 65535, 0, 0, 0, 0, 0, 0] ([wordRead 4, .deliver 5] ++ [.engine])) 0).toNat ∧
      (readReg (idleWith #v[1, 65535, 0, 0, 0, 0, 0, 0] ([wordRead 4, .deliver 5] ++ [.engine])) 0).toNat ≤ 65535 ∧
      1 ≤ (readReg (idleWith #v[1, 65535, 0, 0, 0, 0, 0, 0] ([wordRead 4, .deliver 5] ++ [.engine])) 1).toNat ∧
      (readReg (idleWith #v[1, 65535, 0, 0, 0, 0, 0, 0] ([wordRead 4, .deliver 5] ++ [.engine])) 1).toNat ≤ 65535 :=
  ⟨idleWith_ready _ pollsOnly_sample rfl, by decide, by decide, by decide, by decide⟩

/-- TOT just outside each end of its domain. -/
theorem witness_TotOutsideItsDomain :
    ReadyFor (idleWith #v[0, 5, 0x10000, 3, 0, 0, 0, 0] ([] ++ [])) [] [] ∧
      readReg (idleWith #v[0, 5, 0x10000, 3, 0, 0, 0, 0] ([] ++ [])) 0 = 0 ∧
      65535 < (readReg (idleWith #v[0, 5, 0x10000, 3, 0, 0, 0, 0] ([] ++ [])) 2).toNat :=
  ⟨idleWith_ready _ pollsOnly_nil rfl, by decide, by decide⟩

theorem witness_GenpWritesTheFirstPrimeDrawn :
    ReadyFor (idleWith sampleRegs ([wordRead 4, .deliver 5] ++ [.engine, .deliver 60, wordRead 8, .engine, .deliver 65521, .deliver 2]))
        [wordRead 4, .deliver 5] ([.deliver 60, wordRead 8, .engine] ++ .deliver 65521 :: [.deliver 2]) ∧
      OffersOnly rejectedByGenp [.deliver 60, wordRead 8, .engine] ∧ (65521#16).toNat.Prime := by
  refine ⟨idleWith_ready _ pollsOnly_sample rfl, ?_, by norm_num⟩
  intro e he
  simp only [List.mem_cons, List.not_mem_nil, or_false] at he
  rcases he with rfl | rfl | rfl
  · exact .inr (.inr ⟨60, rfl, (rejectedByGenp_iff 60 rfl).2 (by norm_num)⟩)
  · exact .inr (.inl ⟨_, rfl⟩)
  · exact .inl rfl

/-- A schedule on which the host moves after a rejected word, and one that ends at the request. -/
theorem witness_GenpWaitsWhileNoPrimeComes :
    ReadyFor (idleWith sampleRegs ([] ++ [.engine, .deliver 0, wordWrite 0 7])) [] ([.deliver 0] ++ [wordWrite 0 7]) ∧
      OffersOnly rejectedByGenp [.deliver 0] ∧ ReadyFor (idleWith sampleRegs ([] ++ [])) [] ([] ++ []) := by
  refine ⟨idleWith_ready _ pollsOnly_nil rfl, ?_, idleWith_ready _ pollsOnly_nil rfl⟩
  intro e he
  simp only [List.mem_cons, List.not_mem_nil, or_false] at he
  exact .inr (.inr ⟨0, he, (rejectedByGenp_iff 0 rfl).2 (by norm_num)⟩)

/-- φ = 65538, the least φ of the fast path. -/
theorem witness_SeleFastPathWritesTheFixedExponent :
    ReadyFor (idleWith sampleRegs ([] ++ [])) [] [] ∧
      65537 < (readReg (idleWith sampleRegs ([] ++ [])) 6).toNat :=
  ⟨idleWith_ready _ pollsOnly_nil rfl, by decide⟩

/-- φ = 2, the largest φ outside the domain. -/
theorem witness_SeleOutsideItsDomain :
    ReadyFor (idleWith sampleRegs ([] ++ [.engine])) [] [] ∧
      (readReg (idleWith sampleRegs ([] ++ [.engine])) 7).toNat ≤ 2 :=
  ⟨idleWith_ready _ pollsOnly_nil rfl, by decide⟩

/-- A block with φ in R0 whose engine moves and then the given words come. -/
abbrev withPhi (phi : Word) (words : List Event) : State :=
  idleWith #v[phi, 0, 0, 0, 0, 0, 0, 0] ([] ++ .engine :: words)

/-- φ = 3, the low end of the slow path, with a word it rejects and the one it accepts. -/
theorem witness_SeleSlowPathWritesTheFirstAcceptablePrime :
    ReadyFor (withPhi 3 [.deliver 3, .deliver 2]) [] ([.deliver 3] ++ .deliver 2 :: []) ∧
      3 ≤ (readReg (withPhi 3 [.deliver 3, .deliver 2]) 0).toNat ∧ (readReg (withPhi 3 [.deliver 3, .deliver 2]) 0).toNat ≤ 65537 ∧
      OffersOnly (fun c => ¬ acceptedBySele (readReg (withPhi 3 [.deliver 3, .deliver 2]) 0) c) [.deliver 3] ∧
      acceptedBySele (readReg (withPhi 3 [.deliver 3, .deliver 2]) 0) 2 := by
  refine ⟨idleWith_ready _ pollsOnly_nil rfl, by decide, by decide, ?_, (acceptedBySele_iff 2 3 rfl (by decide)).2 (by norm_num)⟩
  intro e he
  simp only [List.mem_cons, List.not_mem_nil, or_false] at he
  exact .inr (.inr ⟨3, he, fun h => absurd ((acceptedBySele_iff 3 3 rfl (by decide)).1 h) (by norm_num)⟩)

/-- φ = 65537, the high end of the slow path, with the largest 16-bit prime. -/
theorem witness_SeleSlowPathWritesTheFirstAcceptablePrime_high :
    ReadyFor (withPhi 65537 [.deliver 65521]) [] ([] ++ .deliver 65521 :: []) ∧ (readReg (withPhi 65537 [.deliver 65521]) 0).toNat ≤ 65537 ∧
      acceptedBySele (readReg (withPhi 65537 [.deliver 65521]) 0) 65521 :=
  ⟨idleWith_ready _ pollsOnly_nil rfl, by decide, (acceptedBySele_iff 65521 65537 rfl (by decide)).2 (by norm_num)⟩

theorem witness_SeleSlowPathWaitsWhileNothingAcceptableComes :
    ReadyFor (withPhi 4 [.deliver 2]) [] ([.deliver 2] ++ []) ∧ 3 ≤ (readReg (withPhi 4 [.deliver 2]) 0).toNat ∧
      (readReg (withPhi 4 [.deliver 2]) 0).toNat ≤ 65537 ∧
      OffersOnly (fun c => ¬ acceptedBySele (readReg (withPhi 4 [.deliver 2]) 0) c) [.deliver 2] := by
  refine ⟨idleWith_ready _ pollsOnly_nil rfl, by decide, by decide, ?_⟩
  intro e he
  simp only [List.mem_cons, List.not_mem_nil, or_false] at he
  exact .inr (.inr ⟨2, he, fun h => absurd ((acceptedBySele_iff 2 4 rfl (by decide)).1 h) (by norm_num)⟩)

/-- (17, 3120), and (0, 1): φ = 1 is the least modulus. -/
theorem witness_InvWritesTheInverse :
    ReadyFor (idleWith #v[17, 3120, 0, 1, 0, 0, 0, 0] ([] ++ [])) [] [] ∧
      1 ≤ (readReg (idleWith #v[17, 3120, 0, 1, 0, 0, 0, 0] ([] ++ [])) 1).toNat ∧
      Nat.gcd (readReg (idleWith #v[17, 3120, 0, 1, 0, 0, 0, 0] ([] ++ [])) 0).toNat (readReg (idleWith #v[17, 3120, 0, 1, 0, 0, 0, 0] ([] ++ [])) 1).toNat = 1 ∧
      1 ≤ (readReg (idleWith #v[17, 3120, 0, 1, 0, 0, 0, 0] ([] ++ [])) 3).toNat ∧
      Nat.gcd (readReg (idleWith #v[17, 3120, 0, 1, 0, 0, 0, 0] ([] ++ [])) 2).toNat (readReg (idleWith #v[17, 3120, 0, 1, 0, 0, 0, 0] ([] ++ [])) 3).toNat = 1 :=
  ⟨idleWith_ready _ pollsOnly_nil rfl, by decide, by decide, by decide, by decide⟩

/-- φ = 0, and (4, 8) with gcd 4. -/
theorem witness_InvReportsNoInverse :
    ReadyFor (idleWith #v[4, 8, 0, 0, 0, 0, 0, 0] ([] ++ [])) [] [] ∧
      readReg (idleWith #v[4, 8, 0, 0, 0, 0, 0, 0] ([] ++ [])) 2 = 0 ∧
      Nat.gcd (readReg (idleWith #v[4, 8, 0, 0, 0, 0, 0, 0] ([] ++ [])) 0).toNat (readReg (idleWith #v[4, 8, 0, 0, 0, 0, 0, 0] ([] ++ [])) 1).toNat ≠ 1 :=
  ⟨idleWith_ready _ pollsOnly_nil rfl, by decide, by decide⟩

theorem witness_GcdWritesTheGcd :
    ReadyFor (idleWith sampleRegs ([wordRead 4, .deliver 5] ++ [.engine, wordRead 8])) [wordRead 4, .deliver 5] [wordRead 8] :=
  idleWith_ready _ pollsOnly_sample rfl

/-- n = 65535, the largest value of the domain. -/
theorem witness_IsprimeWritesTheVerdict :
    ReadyFor (idleWith #v[65535, 97, 0, 0, 0, 0, 0, 0] ([] ++ [])) [] [] ∧
      (readReg (idleWith #v[65535, 97, 0, 0, 0, 0, 0, 0] ([] ++ [])) 0).toNat ≤ 65535 ∧
      ¬ Nat.Prime 65535 ∧
      Nat.Prime 97 :=
  ⟨idleWith_ready _ pollsOnly_nil rfl, by decide, by norm_num, by norm_num⟩

/-- n = 0x10000, the least value outside the domain. -/
theorem witness_IsprimeOutsideItsDomain :
    ReadyFor (idleWith #v[0x10000, 0, 0, 0, 0, 0, 0, 0] ([] ++ [])) [] [] ∧
      65535 < (readReg (idleWith #v[0x10000, 0, 0, 0, 0, 0, 0, 0] ([] ++ [])) 0).toNat :=
  ⟨idleWith_ready _ pollsOnly_nil rfl, by decide⟩

theorem witness_CommandFrame :
    (∃ t, exec (.tot 2 0 1) (idleWith sampleRegs []) = .next t) ∧ (idleWith sampleRegs []).busy = false ∧
      CommandTurn (acceptedWith .tot 2 61 53 []).inputs [] ∧ (∃ t, step (acceptedWith .tot 2 61 53 []) = .next t) ∧ (0 : RegIdx) ≠ 2 ∧
      targetOf 0x20 ≠ .status ∧ targetOf 0x20 ≠ .drawCnt ∧ targetOf 0x20 ≠ .reg 2 :=
  ⟨⟨_, rfl⟩, rfl, .inl rfl, ⟨_, rfl⟩, by decide, by decide, by decide, by decide⟩

/-- An accepted command with the engine's turn next and with an empty schedule, and SELE at φ = 65538 and at φ = 2. -/
theorem witness_OneEngineStepWithoutDraws :
    (acceptedWith .inv 4 17 3120 [.engine]).Inv ∧ (acceptedWith .inv 4 17 3120 [.engine]).phase = .busy .inv 4 17 3120 .compute ∧
      engineTurn (acceptedWith .inv 4 17 3120 [.engine]).inputs = some [] ∧ engineTurn (acceptedWith .inv 4 17 3120 []).inputs = some [] ∧
      65537 < (65538#32).toNat ∧ (2#32).toNat ≤ 2 :=
  ⟨acceptedWith_inv _ _ _ _ _, rfl, rfl, rfl, by decide, by decide⟩

/-- Each case of `CompletesAs` at a boundary of its range. -/
theorem witness_CompletesAs :
    CompletesAs .tot 1 65535 (.ok 0) ∧ CompletesAs .tot 0x10000 1 .domain ∧ CompletesAs .sele 65538 0 (.ok 65537) ∧ CompletesAs .sele 2 0 .domain ∧
      CompletesAs .inv 0 1 (.ok 0) ∧ CompletesAs .inv 1 0 .noInverse ∧ CompletesAs .gcd 0 0 (.ok 0) ∧ CompletesAs .isprime 2 0 (.ok 1) ∧
      CompletesAs .isprime 0x10000 0 .domain := by
  refine ⟨⟨fun _ => ⟨0, rfl, rfl⟩, by simp⟩, ⟨by simp, fun _ => rfl⟩, ⟨fun _ => rfl, by simp, by simp⟩, ⟨by simp, fun _ => rfl, by simp⟩,
    ⟨fun _ => ⟨0, rfl, by decide, by decide⟩, by simp⟩, ⟨by simp, fun _ => rfl⟩, ⟨0, rfl, rfl⟩, ⟨fun _ => rfl, ?_, by simp⟩, ⟨by simp, by simp, fun _ => rfl⟩⟩
  rintro ⟨_, h⟩
  exact absurd Nat.prime_two h

theorem witness_DrawingCommandsRequestAWord :
    (acceptedWith .sele 3 65537 0 [.engine]).phase = .busy .sele 3 65537 0 .compute ∧
      engineTurn (acceptedWith .sele 3 65537 0 [.engine]).inputs = some [] ∧ engineTurn (acceptedWith .sele 3 65537 0 []).inputs = some [] ∧
      3 ≤ (65537#32).toNat ∧ (65537#32).toNat ≤ 65537 ∧ 3 ≤ (3#32).toNat := by decide

theorem witness_GenpJudgesEachWord :
    (waitingWith .genp 7 0 [.deliver 65521]).Inv ∧ (waitingWith .genp 7 0 [.deliver 65521]).phase = .busy .genp 7 0 0 .awaitDraw ∧
      (waitingWith .genp 7 0 [.deliver 65521]).inputs = [.deliver 65521] ∧ (65521#16).toNat.Prime ∧ ¬ (4#16).toNat.Prime :=
  ⟨waitingWith_inv _ _ _, rfl, rfl, by norm_num, by norm_num⟩

theorem witness_SeleJudgesEachWord :
    (waitingWith .sele 3 3120 [.deliver 17]).Inv ∧ (waitingWith .sele 3 3120 [.deliver 17]).phase = .busy .sele 3 3120 0 .awaitDraw ∧
      (waitingWith .sele 3 3120 [.deliver 17]).inputs = [.deliver 17] ∧ acceptedBySele 3120 17 ∧ ¬ acceptedBySele 3120 3 :=
  ⟨waitingSele_inv _ _ (by decide) _, rfl, rfl, (acceptedBySele_iff 17 3120 rfl rfl).2 (by norm_num),
    fun h => absurd ((acceptedBySele_iff 3 3120 rfl rfl).1 h) (by norm_num)⟩

theorem witness_DrawCounterSaturates : (0xFFFFFFFE : Word) ≠ 0xFFFFFFFF := by decide

theorem witness_NoWordIsTakenWithoutARequest :
    (idleWith sampleRegs [.deliver 7]).entPending = false ∧ (idleWith sampleRegs [.deliver 7]).inputs = [.deliver 7] := by decide

theorem witness_ExtendedEuclidGivesBezout : 1 ≤ (1#32).toNat ∧ 1 ≤ (0xFFFFFFFF#32).toNat := by decide

theorem witness_SignedDatapathNeverOverflows : 1 ≤ (2971215073#32).toNat ∧ (exactLoop 3 (exactStart 17 3120)).b ≠ 0 := by decide

theorem witness_NormalizationIsTheFloorModulus : 1 ≤ (3120#32).toNat ∧ normalize (-367) 3120 = 2753 := by decide

theorem witness_AnAcceptableExponentExists : 3 ≤ (3#32).toNat ∧ (65537#32).toNat ≤ 65537 := by decide

/-- The fast path from the largest totient, and the slow path from 3120 with word 17. -/
theorem witness_PipelineExponentHasAnInverse :
    1 ≤ (65535#16).toNat ∧ (seleStart (totient 65535 65535) Datapath.reset).action = .complete (.ok 65537) ∧
      (seleStart (totient 61 53) Datapath.reset).action = .draw ∧
      (seleOnWord (totient 61 53) 17 Datapath.reset).action = .complete (.ok 17) := by decide

/-- A read of CMD, STATUS, DRAWCNT, both ends of the reserved offsets, R0 and R7. -/
theorem witness_ReadsReturnTheRegisterMap :
    (idleWith sampleRegs [wordRead 0x3C]).resetHeld = false ∧
      (idleWith sampleRegs [wordRead 0x3C]).inputs = [.hostRead ⟨0x3C, 4⟩] ∧
      (0x00#6).toNat = 0x00 ∧ (0x04#6).toNat = 0x04 ∧ (0x08#6).toNat = 0x08 ∧ 0x0C ≤ (0x0C#6).toNat ∧ (0x1C#6).toNat ≤ 0x1C ∧
      (0x20#6).toNat = 0x20 + 4 * (0#3).toNat ∧ (0x3C#6).toNat = 0x20 + 4 * (7#3).toNat ∧ (0x3C#6).toNat % 4 = 0 := by decide

/-- STATUS, both ends of the ignored offsets, and R7 on a busy and on an idle block. -/
theorem witness_WritesFollowTheTable :
    (waitingWith .genp 7 0 [wordWrite 0x3C 1]).resetHeld = false ∧ (waitingWith .genp 7 0 [wordWrite 0x3C 1]).busy = true ∧
      (waitingWith .genp 7 0 [wordWrite 0x3C 1]).inputs = [.hostWrite ⟨0x3C, 4, 1, 0b1111⟩] ∧ (idleWith sampleRegs []).busy = false ∧
      (0x04#6).toNat = 0x04 ∧ 0x08 ≤ (0x08#6).toNat ∧ (0x1C#6).toNat ≤ 0x1C ∧ (0x3C#6).toNat = 0x20 + 4 * (7#3).toNat ∧
      (0x3C#6).toNat % 4 = 0 := by decide

/-- A misaligned read, a narrow and a wide read, and a write with a strobe clear. -/
theorem witness_MalformedAccessHasNoEffect :
    (idleWith sampleRegs [.hostRead ⟨0x02, 4⟩]).resetHeld = false ∧ (idleWith sampleRegs [.hostRead ⟨0x02, 4⟩]).inputs = [.hostRead ⟨0x02, 4⟩] ∧
      (0x02#6).toNat % 4 ≠ 0 ∧ (2 : Nat) ≠ 4 ∧ (8 : Nat) ≠ 4 ∧
      (idleWith sampleRegs [.hostWrite ⟨0, 4, 1, 0b0111⟩]).inputs = [.hostWrite ⟨0, 4, 1, 0b0111⟩] ∧ (0b0111#4) ≠ 0b1111 := by decide

/-- Two states that differ in the phase and agree on what a host can read. -/
theorem witness_ReadsSeeOnlyTheRegisters :
    (waitingWith .genp 7 0 []).regs = (acceptedWith .tot 2 61 53 []).regs ∧ (waitingWith .genp 7 0 []).busy = (acceptedWith .tot 2 61 53 []).busy ∧
      (waitingWith .genp 7 0 []).done = (acceptedWith .tot 2 61 53 []).done ∧ (waitingWith .genp 7 0 []).code = (acceptedWith .tot 2 61 53 []).code ∧
      (waitingWith .genp 7 0 []).ovr = (acceptedWith .tot 2 61 53 []).ovr ∧
      (waitingWith .genp 7 0 []).drawCnt = (acceptedWith .tot 2 61 53 []).drawCnt ∧
      (waitingWith .genp 7 0 []).phase ≠ (acceptedWith .tot 2 61 53 []).phase := by decide

theorem witness_BytesAreLittleEndianLanes : (0x3C#6).toNat % 4 = 0 ∧ (0x00#6).toNat % 4 = 0 := by decide

/-- The first and the last address of the window, and the first one past it. -/
theorem witness_WindowDecodesLowSixBits :
    (Config.mieBase ≤ Config.mieBase ∧ Config.mieBase ≤ Config.mieBase + 0x3F) ∧
      (Config.mieBase ≤ Config.mieBase + 0x3F ∧ Config.mieBase + 0x3F ≤ Config.mieBase + 0x3F) ∧
      Config.mieBase + 0x3F < Config.mieBase + 0x40 := by omega

/-- A register changed by a host's write, by a completion, and by reset. -/
theorem witness_RegistersChangeInTwoWays :
    ((nextOf (step (idleWith (Vector.replicate 8 0) [wordWrite 0x20 7]))).map fun t => readReg t 0) = some 7 ∧
    ((nextOf (step (acceptedWith .tot 2 61 53 [.engine]))).map fun t => readReg t 2) = some 3120 ∧
    ((nextOf (step (idleWith sampleRegs [.reset]))).map fun t => readReg t 0) = some 0 ∧ readReg (idleWith sampleRegs [.reset]) 0 ≠ 0 := by decide

theorem witness_FailedCommandsWriteNoRegister :
    (acceptedWith .inv 0 4 8 []).phase = .busy .inv 0 4 8 .compute ∧ CommandTurn (acceptedWith .inv 0 4 8 []).inputs [] ∧
      ((nextOf (step (acceptedWith .inv 0 4 8 []))).map fun t => (t.phase, t.code)) = some (.idle, .noInverse) :=
  ⟨rfl, .inl rfl, by decide⟩

theorem witness_OverrunFlagIsSetByDiscardedWritesOnly :
    (waitingWith .genp 7 0 [wordWrite 0 1]).ovr = false ∧ ((nextOf (step (waitingWith .genp 7 0 [wordWrite 0 1]))).map State.ovr) = some true := by
  decide

/-- OVR cleared by the host, and by reset. -/
theorem witness_OverrunFlagIsSticky :
    ((nextOf (step { idleWith sampleRegs [wordWrite 4 0x10] with ovr := true })).map State.ovr) = some false ∧
      ((nextOf (step { idleWith sampleRegs [.reset] with ovr := true })).map State.ovr) = some false := by decide

/-- CODE changed by a completion, by an illegal word, and by reset. -/
theorem witness_CodeChangesOnlyAtCompletionOrReset :
    ((nextOf (step (acceptedWith .inv 4 4 8 [.engine]))).map State.code) = some .noInverse ∧ (acceptedWith .inv 4 4 8 [.engine]).code = .ok ∧
      ((nextOf (step (idleWith sampleRegs [wordWrite 0 0]))).map State.code) = some .illegal ∧
      ((nextOf (step { idleWith sampleRegs [.holdReset] with code := .domain })).map State.code) = some .ok := by decide

theorem witness_GenpResultIsASixteenBitPrime :
    (waitingWith .genp 7 0 [.deliver 2]).Inv ∧ (waitingWith .genp 7 0 [.deliver 2]).phase = .busy .genp 7 0 0 .awaitDraw ∧
      ((nextOf (step (waitingWith .genp 7 0 [.deliver 2]))).map fun t => (t.done, readReg t 7)) = some (true, 2) :=
  ⟨waitingWith_inv _ _ _, rfl, by decide⟩

theorem witness_InvariantsKeptByEveryStep : (waitingWith .genp 7 0 [.deliver 60]).Inv ∧ (waitingWith .genp 7 0 [.deliver 60]).stepsSafely :=
  ⟨waitingWith_inv _ _ _, ⟨_, rfl⟩⟩

/-- The refusal's own case: an access while reset is asserted. -/
theorem witness_OnlyAccessesDuringResetStop :
    ({ State.reset with inputs := [wordRead 4], resetHeld := true } : State).Inv ∧
      step { State.reset with inputs := [wordRead 4], resetHeld := true } = .refused .accessDuringReset := by
  refine ⟨?_, rfl⟩
  constructor <;> simp [State.reset, Phase.isBusy, Phase.isWaiting, Phase.sound]

/-- An acceptance and a read. -/
theorem witness_HostAccessTakesNoEngineStep :
    (idleWith sampleRegs [wordWrite 0 0x1022]).inputs = [.hostWrite (cmdWrite 0x1022)] ∧ (idleWith sampleRegs [wordWrite 0 0x1022]).stepsSafely ∧
      (acceptedWith .tot 2 61 53 [wordRead 4]).inputs = [.hostRead ⟨4, 4⟩] ∧ (acceptedWith .tot 2 61 53 [wordRead 4]).stepsSafely :=
  ⟨rfl, ⟨_, rfl⟩, rfl, ⟨_, rfl⟩⟩

/-- done_o rises at a completion and at an illegal word, and falls at an acceptance and at reset. -/
theorem witness_DoneOutputRisesAndFalls :
    (acceptedWith .tot 2 61 53 []).doneO = false ∧ ((nextOf (step (acceptedWith .tot 2 61 53 []))).map State.doneO) = some true ∧
      ((nextOf (step (idleWith sampleRegs [wordWrite 0 7]))).map State.doneO) = some true ∧
      ((nextOf (step { idleWith sampleRegs [wordWrite 0 0x1022] with done := true })).map State.doneO) = some false ∧
      ((nextOf (step { idleWith sampleRegs [.reset] with done := true })).map State.doneO) = some false := by decide

theorem witness_ResetFromAnyState : (waitingWith .genp 7 0 [.reset]).inputs = [.reset] := by decide

theorem witness_AssertedResetServesNoAccess :
    (waitingWith .genp 7 0 [.holdReset]).inputs = [.holdReset] ∧
      ({ State.reset with inputs := [wordRead 4], resetHeld := true } : State).resetHeld = true ∧
      ({ State.reset with inputs := [.deliver 5], resetHeld := true } : State).inputs = [.deliver 5] ∧
      SameTuple State.reset { State.reset with inputs := [.deliver 5], resetHeld := true } ∧
      ({ State.reset with inputs := [.releaseReset], resetHeld := true } : State).inputs = [.releaseReset] := by
  simp [waitingWith, SameTuple]

end Sys2Proof.Tests
end

section
/-! The host's write of a legal word to CMD (R39, R63), and the placed word as that write (log 9). -/

namespace Sys2Proof

/-- A decoder's answer stands for a command only where it is that legal command. -/
@[simp] theorem Decoded.toOption_eq_some {d : Decoded} {i : Instr} : d.toOption = some i ↔ d = .legal i := by
  cases d <;> simp [Decoded.toOption]

/-- Reading a table row's bits over the bus's bytes is decoding the row's word. -/
theorem decodeTableWord_eq_some {nbits w : Nat} {i : Instr} : decodeTableWord nbits w = some i ↔ decode (tableWord nbits w) = .legal i := by
  rw [decodeTableWord, Laws.decodeBytes_lanesOfWord, Decoded.toOption_eq_some]

end Sys2Proof

namespace Sys2Proof.Machine

/-- The window's first offset is CMD (R36). -/
@[simp] theorem targetOf_zero : targetOf 0 = .cmd := rfl

/-- The access of a host that issues a command passes the check of R40. -/
@[simp] theorem cmdWrite_wellFormed (v : Word) : (cmdWrite v).wellFormed = true := rfl

@[simp] theorem cmdWrite_off (v : Word) : (cmdWrite v).off = 0 := rfl

/-- A well-formed write of a legal word to CMD is served by `exec` of the command (R39, R63). -/
theorem hostWrite_cmd_legal {a : WriteAccess} {i : Instr} (s : State) (hw : a.wellFormed = true) (ho : a.off = 0)
    (hd : decode a.data = .legal i) : hostWrite a s = exec i { s with resp := some .written } := by
  rw [hostWrite, if_pos hw, ho, targetOf_zero]
  simp only [writeTarget, writeCmd, hd]

/-- With reset released, the turn of a host that writes a legal word to CMD is `exec` of the command. -/
theorem step_cmd_legal {s : State} {a : WriteAccess} {rest : List Event} {i : Instr} (hs : s.inputs = .hostWrite a :: rest)
    (hw : a.wellFormed = true) (ho : a.off = 0) (hr : s.resetHeld = false) (hd : decode a.data = .legal i) :
    step s = exec i { s with inputs := rest, resp := some .written } := by
  have hturn : takeTurn (.hostWrite a) { s with inputs := rest } = hostWrite a { s with inputs := rest } :=
    if_neg (by simp [hr])
  rw [step_cons hs, hturn, hostWrite_cmd_legal _ hw ho hd]

/-- Settles O7: placing a word schedules a well-formed write of it to CMD, and the decoder reads that word as it reads the row's bits. -/
theorem placedWordRunsNext : Obligations.PlacedWordRunsNext := by
  intro s nbits w i h
  have hd : decode (tableWord nbits w) = .legal i := decodeTableWord_eq_some.mp h
  exact step_cmd_legal (s := s.withFetchWord nbits w) rfl (cmdWrite_wellFormed _) (cmdWrite_off _) rfl hd

end Sys2Proof.Machine
end

section
/-! STATUS bit by bit (R19), what a host's read sees (R24, R38), the draw counter (R21) and the reset values (R30). -/

namespace Sys2Proof.Machine

/-- The bits of a field at its place in a word (R8). -/
theorem getLsbD_placeField {n : Nat} (v : BitVec n) (lo j : Nat) :
    (placeField v lo).getLsbD j = (decide (lo ≤ j ∧ j < 32) && v.getLsbD (j - lo)) := by
  by_cases hj : j < 32 <;> by_cases hlo : lo ≤ j <;> simp [placeField, hj, hlo]

/-- A bit of STATUS is that bit of one of its four fields (R19). -/
theorem getLsbD_statusWord (s : State) (j : Nat) : (statusWord s).getLsbD j =
    ((placeField (BitVec.ofBool s.busy) 0).getLsbD j || (placeField (BitVec.ofBool s.done) 1).getLsbD j ||
      (placeField s.code.bits 2).getLsbD j || (placeField (BitVec.ofBool s.ovr) 4).getLsbD j) := by
  simp only [statusWord, BitVec.getLsbD_or]

theorem statusWord_busy (s : State) : (statusWord s).getLsbD 0 = s.busy := by
  simp only [getLsbD_statusWord, getLsbD_placeField]
  simp

theorem statusWord_ovr (s : State) : (statusWord s).getLsbD 4 = s.ovr := by
  simp only [getLsbD_statusWord, getLsbD_placeField]
  simp

/-- Bits 3:2 of STATUS are those of CODE (R19). -/
theorem statusWord_code (s : State) : (statusWord s).extractLsb' 2 2 = s.code.bits := by
  apply BitVec.eq_of_getLsbD_eq
  intro i hi
  simp only [BitVec.getLsbD_extractLsb', getLsbD_statusWord, getLsbD_placeField]
  interval_cases i <;> simp

theorem statusWord_high (s : State) {j : Nat} (hj : 5 ≤ j) : (statusWord s).getLsbD j = false := by
  have field {n : Nat} (v : BitVec n) (lo : Nat) (h : lo + n ≤ 5) : (placeField v lo).getLsbD j = false := by
    rw [getLsbD_placeField, BitVec.getLsbD_of_ge v _ (by omega), Bool.and_false]
  simp [getLsbD_statusWord, field]

/-- STATUS[31:5] = 0 (R19, R31). -/
theorem statusWord_div_32 (s : State) : (statusWord s).toNat / 2 ^ 5 = 0 := by
  have h : statusWord s >>> 5 = 0#32 := by
    apply BitVec.eq_of_getLsbD_eq
    intro i _
    rw [BitVec.getLsbD_ushiftRight, statusWord_high s (by omega), BitVec.getLsbD_zero]
  rw [← Nat.shiftRight_eq_div_pow, ← BitVec.toNat_ushiftRight, h, BitVec.toNat_zero]

/-- Settles O40: each bit lies in one field of R19, and none lies above bit 4. -/
theorem statusWordLayout : Obligations.StatusWordLayout := by
  intro s
  refine ⟨statusWord_busy s, statusWord_done s, statusWord_ovr s, ?_, ?_, ?_, ?_, fun j hj => statusWord_high s hj⟩ <;>
    (intro hc; rw [statusWord_code, hc]; rfl)

theorem statusWord_congr {s u : State} (hbusy : s.busy = u.busy) (hdone : s.done = u.done) (hcode : s.code = u.code) (hovr : s.ovr = u.ovr) :
    statusWord s = statusWord u := by
  rw [statusWord, statusWord, hbusy, hdone, hcode, hovr]

/-- A host's read returns the register its offset names, or a bus error (R38, R40). -/
theorem hostRead_resp (r : ReadAccess) (s : State) :
    (hostRead r s).resp = some (if r.wellFormed then .data (readTarget s (targetOf r.off)) else .busError) := by
  unfold hostRead
  split <;> rfl

/-- Settles O44: every register of the map is read from the register file, the fields of STATUS or DRAWCNT. -/
theorem readsSeeOnlyTheRegisters : Obligations.ReadsSeeOnlyTheRegisters := by
  intro s u r hregs hbusy hdone hcode hovr hdraw
  have htarget (k : Target) : readTarget s k = readTarget u k := by
    cases k with
    | cmd => rfl
    | status => exact statusWord_congr hbusy hdone hcode hovr
    | drawCnt => exact hdraw
    | reserved => rfl
    | reg k => exact readReg_congr hregs k
  rw [hostRead_resp, hostRead_resp, htarget]

/-- Settles O31: below 0xFFFFFFFF the increment does not wrap. -/
theorem drawCounterSaturates : Obligations.DrawCounterSaturates := by
  refine ⟨if_pos rfl, fun n hn => ?_⟩
  rw [bumpDrawCnt, if_neg hn]
  bv_omega

@[simp] theorem readReg_reset (k : RegIdx) : readReg State.reset k = 0 := by
  simp [readReg, State.reset]

/-- Settles O58: the registers by `readReg_reset`; every other value is a field of `State.reset`. -/
theorem resetValues : Obligations.ResetValues :=
  ⟨readReg_reset, rfl, rfl, rfl, rfl, rfl, rfl, rfl, rfl, rfl⟩

end Sys2Proof.Machine
end

section
/-! The invariants of the block hold at reset and every step keeps them (R31, R27, R69, R104). -/

namespace Sys2Proof.Machine

/-- BUSY says whether a command is in progress (R31). -/
theorem Phase.isBusy_eq_true (p : Phase) : p.isBusy = true ↔ ∃ op rd a b stage, p = .busy op rd a b stage := by
  cases p <;> simp [Phase.isBusy]

/-- A waiting command is in progress. -/
theorem Phase.isBusy_of_isWaiting {p : Phase} (h : p.isWaiting = true) : p.isBusy = true := by
  cases p with
  | idle => exact h
  | busy => rfl

namespace State.Inv

variable {s t : State}

/-- An idle block stands in phase Idle (R31). -/
theorem phase_of_not_busy (hi : s.Inv) (hb : s.busy = false) : s.phase = .idle := by
  have hbusy := hi.busy_iff
  cases hp : s.phase with
  | idle => rfl
  | busy => rw [hb, hp] at hbusy; cases hbusy

/-- While a command is in progress BUSY is set, DONE is clear and reset is released. -/
theorem of_phase_busy (hi : s.Inv) {op : Opcode} {rd : RegIdx} {a b : Word} {stage : Stage} (hp : s.phase = .busy op rd a b stage) :
    s.busy = true ∧ s.done = false ∧ s.resetHeld = false := by
  have hb : s.busy = true := by rw [hi.busy_iff, hp]; rfl
  have hr : s.resetHeld ≠ true := fun hr => by simpa [hb] using (hi.held_idle hr).1
  exact ⟨hb, hi.busy_not_done hb, by simpa using hr⟩

/-- The invariants speak of no register, of neither OVR nor the datapath, and of neither the schedule nor the bus response. -/
theorem of_same_control (hi : s.Inv) (hbusy : t.busy = s.busy) (hdone : t.done = s.done) (hcode : t.code = s.code)
    (hdraw : t.drawCnt = s.drawCnt) (hphase : t.phase = s.phase) (hpend : t.entPending = s.entPending)
    (hheld : t.resetHeld = true → s.resetHeld = true) : t.Inv where
  busy_iff := by rw [hbusy, hphase, hi.busy_iff]
  busy_not_done := by rw [hbusy, hdone]; exact hi.busy_not_done
  pending_iff := by rw [hpend, hphase, hi.pending_iff]
  phase_sound := by rw [hphase, hdraw]; exact hi.phase_sound
  failed_drew_nothing := by rw [hdone, hcode, hdraw]; exact hi.failed_drew_nothing
  held_idle := by rw [hbusy, hdone]; exact fun h => hi.held_idle (hheld h)

/-- The invariants in phase Idle. -/
theorem of_idle (hphase : t.phase = .idle) (hbusy : t.busy = false) (hpend : t.entPending = false)
    (hfailed : t.done = true → t.code ≠ .ok → t.drawCnt = 0) (hheld : t.resetHeld = true → t.done = false) : t.Inv where
  busy_iff := by rw [hbusy, hphase]; rfl
  busy_not_done := by simp [hbusy]
  pending_iff := by rw [hpend, hphase]; rfl
  phase_sound := by rw [hphase]; trivial
  failed_drew_nothing := hfailed
  held_idle := fun h => ⟨hbusy, hheld h⟩

/-- The invariants with a command in progress. -/
theorem of_busy {op : Opcode} {rd : RegIdx} {a b : Word} {stage : Stage} (hphase : t.phase = .busy op rd a b stage) (hbusy : t.busy = true)
    (hdone : t.done = false) (hpend : t.entPending = t.phase.isWaiting) (hsound : t.phase.sound t.drawCnt) (hheld : t.resetHeld = false) :
    t.Inv where
  busy_iff := by rw [hbusy, hphase]; rfl
  busy_not_done := fun _ => hdone
  pending_iff := hpend
  phase_sound := hsound
  failed_drew_nothing := by simp [hdone]
  held_idle := by simp [hheld]

end State.Inv

/-- The state after reset, released or held, whatever is scheduled (R30, R123). -/
theorem resetBlock_inv (s : State) (held : Bool) : State.Inv { resetBlock s with resetHeld := held } :=
  .of_idle rfl rfl rfl (by simp [State.reset]) (fun _ => rfl)

/-- Settles O54: the block is idle and DONE is 0. -/
theorem invariantsHoldAtReset : Obligations.InvariantsHoldAtReset :=
  resetBlock_inv State.reset false

/-- A completion leaves the invariants: a code other than OK must come with no draws (R104). -/
theorem complete_inv {s : State} (rd : RegIdx) {c : Completion} (hpend : s.entPending = false) (hr : s.resetHeld = false)
    (hc : c.code ≠ .ok → s.drawCnt = 0) : (complete rd c s).Inv :=
  .of_idle rfl rfl (by simp [hpend]) (by simpa using hc) (by simp [hr])

/-- A request for a word leaves the invariants where the command may draw (R69). -/
theorem requestDraw_inv {s : State} {op : Opcode} (rd : RegIdx) {a : Word} (b : Word) (hb : s.busy = true) (hd : s.done = false)
    (hr : s.resetHeld = false) (hdraw : mayDraw op a = true) : (requestDraw op rd a b s).Inv :=
  .of_busy rfl hb hd rfl hdraw hr

/-- The engine's step asks for a word only for GENP and for SELE on its slow path (R70, R89–R91). -/
theorem mayDraw_of_engineExec_draw {op : Opcode} {a b : Word} {dp : Datapath} (h : (engineExec op a b dp).action = .draw) :
    mayDraw op a = true := by
  cases op with
  | genp => rfl
  | tot => simp only [engineExec, totStart] at h; split at h <;> cases h
  | sele =>
    simp only [engineExec, seleStart] at h
    split at h
    · cases h
    · split at h
      · cases h
      · simp only [mayDraw, Bool.and_eq_true, decide_eq_true_eq]
        bv_omega
  | inv =>
    simp only [engineExec, invStart] at h
    split at h
    · cases h
    · simp only at h; split at h <;> cases h
  | gcd => cases h
  | isprime => simp only [engineExec, isprimeStart] at h; split at h <;> cases h

/-- The engine's step keeps the invariants: nothing has been drawn before it. -/
theorem engine_perform_inv {s : State} (hi : s.Inv) {op : Opcode} {rd : RegIdx} {a b : Word} (hp : s.phase = .busy op rd a b .compute) :
    (perform op rd a b (engineExec op a b s.datapath) s).Inv := by
  obtain ⟨hb, hd, hr⟩ := hi.of_phase_busy hp
  have hpend : s.entPending = false := by rw [hi.pending_iff, hp]; rfl
  have hzero : s.drawCnt = 0 := by have h := hi.phase_sound; rwa [hp] at h
  rcases perform_cases op rd a b (engineExec op a b s.datapath) s with ⟨c, -, ht⟩ | ⟨hdraw, ht⟩ <;> rw [ht]
  · exact complete_inv rd hpend hr fun _ => hzero
  · exact requestDraw_inv rd b hb hd hr (mayDraw_of_engineExec_draw hdraw)

/-- A delivered word keeps the invariants: it completes the command with OK or leaves the request standing. -/
theorem word_perform_inv {s : State} (hi : s.Inv) {w : Half} {op : Opcode} {rd : RegIdx} {a b : Word} {o : Outturn}
    (hp : s.phase = .busy op rd a b .awaitDraw) (ho : onWord op a w s.datapath = some o) : (perform op rd a b o (countWord s)).Inv := by
  obtain ⟨hb, hd, hr⟩ := hi.of_phase_busy hp
  have hmay : mayDraw op a = true := by have h := hi.phase_sound; rwa [hp] at h
  rcases onWord_action ho with hact | hact <;> simp only [perform, hact]
  · exact complete_inv rd rfl hr fun h => absurd rfl h
  · exact requestDraw_inv rd b hb hd hr hmay

/-- A turn of the command in progress keeps the invariants. -/
theorem CommandMove.keeps_inv {s t : State} {rest : List Event} (hi : s.Inv) (hm : CommandMove s t rest) : t.Inv := by
  have hi' : State.Inv { s with inputs := rest } := hi.of_same_control rfl rfl rfl rfl rfl rfl id
  cases hm with
  | stays h => subst h; exact hi'
  | engine op rd a b hp h => subst h; exact engine_perform_inv hi' hp
  | word w op rd a b o hp ho h => subst h; exact word_perform_inv hi' hp ho

/-- A host's write keeps the invariants: only an acceptance touches what they speak of. -/
theorem WriteMove.keeps_inv {s t : State} {a : WriteAccess} {rest : List Event} (hi : s.Inv) (hr : s.resetHeld = false)
    (hm : WriteMove s t a rest) : t.Inv := by
  cases hm with
  | ignored v h => subst h; exact hi.of_same_control rfl rfl rfl rfl rfl rfl id
  | accepted hw ht hb i hd h =>
    subst h
    exact .of_busy (accept_phase _ i) rfl rfl (hi.idle_not_pending hb) rfl hr
  | illegal hw ht hb why hd h =>
    subst h
    exact .of_idle (hi.phase_of_not_busy hb) hb (hi.idle_not_pending hb) (fun _ _ => rfl) (by simp [hr])
  | discarded hw ht hb h => subst h; exact hi.of_same_control rfl rfl rfl rfl rfl rfl id
  | status hw ht h => subst h; exact hi.of_same_control rfl rfl rfl rfl rfl rfl id
  | operand hw k ht hb h => subst h; exact hi.of_same_control rfl rfl rfl rfl rfl rfl id

theorem step_keeps_inv {s t : State} (hi : s.Inv) (h : step s = .next t) : t.Inv := by
  cases step_move h with
  | command rest hs h => exact h.keeps_inv hi
  | read r rest v hs hr h => subst h; exact hi.of_same_control rfl rfl rfl rfl rfl rfl id
  | write a rest hs hr h => exact h.keeps_inv hi hr
  | reset rest hs h => subst h; exact resetBlock_inv { s with inputs := rest } false
  | hold rest hs h => subst h; exact resetBlock_inv _ true
  | release rest hs h => subst h; exact hi.of_same_control rfl rfl rfl rfl rfl rfl (fun h => absurd h Bool.false_ne_true)

/-- Settles O53: `step_keeps_inv`, and R31's four items from the invariants of the next state. -/
theorem invariantsKeptByEveryStep : Obligations.InvariantsKeptByEveryStep := by
  intro s t hi h
  have ht : t.Inv := step_keeps_inv hi h
  refine ⟨ht, ?_, ht.busy_not_done, fun hpend => ?_, statusWord_div_32 t⟩
  · rw [ht.busy_iff, Phase.isBusy_eq_true]
  · rw [ht.busy_iff]
    exact Phase.isBusy_of_isWaiting (ht.pending_iff ▸ hpend)

end Sys2Proof.Machine
end

section
/-! What a command in progress changes (R16, R67, R112), and what changes a register (R16) or CODE (R20). -/

namespace Sys2Proof.Machine

section
variable (op : Opcode) (rd : RegIdx) (a b : Word) (o : Outturn) (s : State)

@[simp] theorem perform_ovr : (perform op rd a b o s).ovr = s.ovr := by
  rcases perform_cases op rd a b o s with ⟨c, -, ht⟩ | ⟨-, ht⟩ <;> simp [ht]

@[simp] theorem perform_inputs : (perform op rd a b o s).inputs = s.inputs := by
  rcases perform_cases op rd a b o s with ⟨c, -, ht⟩ | ⟨-, ht⟩ <;> simp [ht]

@[simp] theorem perform_resp : (perform op rd a b o s).resp = s.resp := by
  rcases perform_cases op rd a b o s with ⟨c, -, ht⟩ | ⟨-, ht⟩ <;> simp [ht]

@[simp] theorem perform_resetHeld : (perform op rd a b o s).resetHeld = s.resetHeld := by
  rcases perform_cases op rd a b o s with ⟨c, -, ht⟩ | ⟨-, ht⟩ <;> simp [ht]

/-- For the registers and CODE, the end of an engine step is a completion from the same register file, or it changes neither. -/
theorem perform_regs_code : ((perform op rd a b o s).regs = s.regs ∧ (perform op rd a b o s).code = s.code) ∨
    ∃ c u, u.regs = s.regs ∧ perform op rd a b o s = complete rd c u := by
  rcases perform_cases op rd a b o s with ⟨c, -, ht⟩ | ⟨-, ht⟩
  · exact .inr ⟨c, { s with datapath := o.datapath }, rfl, ht⟩
  · exact .inl ⟨by rw [ht]; rfl, by rw [ht]; rfl⟩

end

/-- A completion writes no other register than RD. -/
theorem readReg_complete_other (s : State) {rd k : RegIdx} (c : Completion) (hk : k ≠ rd) : readReg (complete rd c s) k = readReg s k := by
  cases c with
  | ok v => exact readReg_writeReg_other s v hk
  | noInverse => rfl
  | domain => rfl

/-- A completion with a code other than OK writes no register (R112). -/
theorem complete_regs_of_code_ne_ok (s : State) (rd : RegIdx) {c : Completion} (hc : c.code ≠ .ok) : (complete rd c s).regs = s.regs := by
  cases c with
  | ok v => exact absurd rfl hc
  | noInverse => rfl
  | domain => rfl

/-! ## The turn of a command in progress -/

/-- A step in the engine's turn, or in that of an offered word, is a move of the command. -/
theorem step_commandMove {s t : State} {rest : List Event} (ht : CommandTurn s.inputs rest) (h : step s = .next t) : CommandMove s t rest := by
  rcases ht with he | ⟨w, hw⟩
  · rw [step_engineTurn he] at h
    cases h
    exact engineStep_move s rest
  · cases step_move h with
    | command rest' hs hm =>
      have hrest : rest' = rest := by
        rw [hw] at hs
        rcases hs with he | ⟨w', he⟩ <;> cases he
        rfl
      exact hrest ▸ hm
    | read r rest' v hs => rw [hw] at hs; cases hs
    | write a rest' hs => rw [hw] at hs; cases hs
    | reset rest' hs => rw [hw] at hs; cases hs
    | hold rest' hs => rw [hw] at hs; cases hs
    | release rest' hs => rw [hw] at hs; cases hs

namespace CommandMove

variable {s t : State} {rest : List Event}

/-- For the registers and CODE, a turn of the command in progress is its completion from the same register file, or it changes neither. -/
theorem regs_code (hm : CommandMove s t rest) : (t.regs = s.regs ∧ t.code = s.code) ∨
    ∃ op rd a b stage c u, s.phase = .busy op rd a b stage ∧ u.regs = s.regs ∧ t = complete rd c u := by
  cases hm with
  | stays h => subst h; exact .inl ⟨rfl, rfl⟩
  | engine op rd a b hp h =>
    subst h
    exact (perform_regs_code ..).imp_right fun ⟨c, u, hu, ht⟩ => ⟨op, rd, a, b, _, c, u, hp, hu, ht⟩
  | word w op rd a b o hp ho h =>
    subst h
    exact (perform_regs_code ..).imp_right fun ⟨c, u, hu, ht⟩ => ⟨op, rd, a, b, _, c, u, hp, hu, ht⟩

/-- A turn of the command in progress leaves OVR, the bus response and the reset input, and takes itself off the schedule. -/
theorem frame (hm : CommandMove s t rest) : t.ovr = s.ovr ∧ t.resp = s.resp ∧ t.resetHeld = s.resetHeld ∧ t.inputs = rest := by
  cases hm with
  | stays h => simp [h]
  | engine op rd a b hp h => simp [h]
  | word w op rd a b o hp ho h => simp [h]

/-- A turn of the command in progress writes no other register than its RD. -/
theorem readReg_other (hm : CommandMove s t rest) {op : Opcode} {rd : RegIdx} {a b : Word} {stage : Stage}
    (hp : s.phase = .busy op rd a b stage) {k : RegIdx} (hk : k ≠ rd) : readReg t k = readReg s k := by
  rcases hm.regs_code with ⟨hregs, -⟩ | ⟨op', rd', a', b', stage', c, u, hp', hu, ht⟩
  · exact readReg_congr hregs k
  · have hrd : rd' = rd := by rw [hp] at hp'; cases hp'; rfl
    rw [ht, hrd, readReg_complete_other u c hk, readReg_congr hu]

/-- A turn that changes a register is the completion, with code OK, of a command whose RD names it (R16). -/
theorem of_readReg_ne (hm : CommandMove s t rest) {k : RegIdx} (hne : readReg t k ≠ readReg s k) :
    ∃ op a b stage, s.phase = .busy op k a b stage ∧ t.phase = .idle ∧ t.busy = false ∧ t.done = true ∧ t.code = .ok := by
  rcases hm.regs_code with ⟨hregs, -⟩ | ⟨op, rd, a, b, stage, c, u, hp, hu, rfl⟩
  · exact absurd (readReg_congr hregs k) hne
  · have hk : k = rd := by
      by_contra hk
      exact hne ((readReg_complete_other u c hk).trans (readReg_congr hu k))
    have hc : c.code = .ok := by
      by_contra hc
      exact hne (readReg_congr ((complete_regs_of_code_ne_ok u rd hc).trans hu) k)
    exact ⟨op, a, b, stage, hk ▸ hp, rfl, rfl, rfl, hc⟩

/-- A turn that leaves a code other than OK writes no register (R112). -/
theorem regs_of_code_ne_ok (hm : CommandMove s t rest) (hc : t.code ≠ .ok) : t.regs = s.regs := by
  rcases hm.regs_code with ⟨hregs, -⟩ | ⟨op, rd, a, b, stage, c, u, hp, hu, rfl⟩
  · exact hregs
  · exact (complete_regs_of_code_ne_ok u rd hc).trans hu

/-- A turn that changes CODE is the completion of the command in progress (R20). -/
theorem of_code_ne (hm : CommandMove s t rest) (hne : t.code ≠ s.code) :
    ∃ op rd a b stage, s.phase = .busy op rd a b stage ∧ t.phase = .idle ∧ t.busy = false ∧ t.done = true := by
  rcases hm.regs_code with ⟨-, hcode⟩ | ⟨op, rd, a, b, stage, c, u, hp, hu, rfl⟩
  · exact absurd hcode hne
  · exact ⟨op, rd, a, b, stage, hp, rfl, rfl, rfl⟩

end CommandMove

/-! ## The frame of a command -/

/-- A byte of the window outside STATUS and DRAWCNT shows the register at its offset and nothing else of the block (R36, R37). -/
theorem windowByte_congr {s t : State} {off : BitVec 6} (hstatus : targetOf off ≠ .status) (hdraw : targetOf off ≠ .drawCnt)
    (hreg : ∀ k, targetOf off = .reg k → readReg t k = readReg s k) : windowByte t off = windowByte s off := by
  have hread : readTarget t (targetOf off) = readTarget s (targetOf off) := by
    cases htarget : targetOf off with
    | cmd => rfl
    | status => exact absurd htarget hstatus
    | drawCnt => exact absurd htarget hdraw
    | reserved => rfl
    | reg k => exact hreg k htarget
  rw [windowByte, windowByte, hread]

/-- What `exec` of any command does: discarded on a busy block, accepted on an idle one (R63, R64). -/
theorem exec_cases {i : Instr} {s t : State} (h : exec i s = .next t) : (s.busy = true ∧ t = overrun s) ∨ (s.busy = false ∧ t = accept i s) := by
  cases hb : s.busy with
  | true => rw [exec_busy i hb] at h; cases h; exact .inl ⟨rfl, rfl⟩
  | false => rw [exec_idle i hb] at h; cases h; exact .inr ⟨rfl, rfl⟩

/-- Settles O26: the issue is an overrun or an acceptance, which write no register; a turn in progress is a `CommandMove`. -/
theorem commandFrame : Obligations.CommandFrame := by
  constructor
  · intro i s t h
    rcases exec_cases h with ⟨hb, rfl⟩ | ⟨-, rfl⟩
    · exact ⟨rfl, rfl, rfl, rfl, rfl, rfl, rfl, fun hb' => absurd (hb.symm.trans hb') (by decide),
        fun off hs hd => windowByte_congr hs hd fun _ _ => rfl⟩
    · exact ⟨rfl, rfl, rfl, rfl, rfl, rfl, rfl, fun _ => rfl, fun off hs hd => windowByte_congr hs hd fun _ _ => rfl⟩
  · intro s t rest op rd a b stage hp hturn h
    have hm : CommandMove s t rest := step_commandMove hturn h
    have hother (k : RegIdx) (hk : k ≠ rd) : readReg t k = readReg s k := hm.readReg_other hp hk
    obtain ⟨hovr, hresp, hheld, hinputs⟩ := hm.frame
    exact ⟨hother, hovr, hresp, hheld, hinputs, fun off hs hd hrd =>
      windowByte_congr hs hd fun k hk => hother k fun e => hrd (e ▸ hk)⟩

/-- Settles O48, by the code of the completion. -/
theorem failedCommandsWriteNoRegister : Obligations.FailedCommandsWriteNoRegister := by
  intro s t rest op rd a b stage _ hturn h _ hc
  exact (step_commandMove hturn h).regs_of_code_ne_ok hc

/-! ## What changes a register, and what changes CODE -/

/-- A host's write changes a register only as a served write to it (R16, R39). -/
theorem WriteMove.of_readReg_ne {s t : State} {a : WriteAccess} {rest : List Event} (hm : WriteMove s t a rest) {k : RegIdx}
    (hne : readReg t k ≠ readReg s k) : a.wellFormed = true ∧ targetOf a.off = .reg k ∧ s.busy = false ∧ readReg t k = a.data := by
  cases hm with
  | ignored v h => subst h; exact absurd rfl hne
  | accepted hw ht hb i hd h => subst h; exact absurd rfl hne
  | illegal hw ht hb why hd h => subst h; exact absurd rfl hne
  | discarded hw ht hb h => subst h; exact absurd rfl hne
  | status hw ht h => subst h; exact absurd rfl hne
  | operand hw j ht hb h =>
    subst h
    have hk : k = j := by
      by_contra hk
      exact hne (readReg_writeReg_other _ a.data hk)
    subst hk
    exact ⟨hw, ht, hb, readReg_writeReg_same ..⟩

/-- A host's write changes CODE only as the acceptance of an illegal word (R20, R106). -/
theorem WriteMove.of_code_ne {s t : State} {a : WriteAccess} {rest : List Event} (hm : WriteMove s t a rest) (hne : t.code ≠ s.code) :
    ∃ why, a.wellFormed = true ∧ targetOf a.off = .cmd ∧ s.busy = false ∧ decode a.data = .illegal why ∧ t.code = .illegal ∧ t.done = true := by
  cases hm with
  | ignored v h => subst h; exact absurd rfl hne
  | accepted hw ht hb i hd h => subst h; exact absurd rfl hne
  | illegal hw ht hb why hd h => subst h; exact ⟨why, hw, ht, hb, hd, rfl, rfl⟩
  | discarded hw ht hb h => subst h; exact absurd rfl hne
  | status hw ht h => subst h; exact absurd rfl hne
  | operand hw j ht hb h => subst h; exact absurd rfl hne

/-- Settles O47, by the agent whose turn it is. -/
theorem registersChangeInTwoWays : Obligations.RegistersChangeInTwoWays := by
  intro s t k h hne
  cases step_move h with
  | command rest hs hm =>
    obtain ⟨op, a, b, stage, hp, hidle, hbusy, hdone, hcode⟩ := hm.of_readReg_ne hne
    exact .inr (.inl ⟨op, a, b, stage, rest, hp, hs, hidle, hbusy, hdone, hcode⟩)
  | read r rest v hs hr h => subst h; exact absurd rfl hne
  | write a rest hs hr hm => exact .inl ⟨a, rest, hs, hm.of_readReg_ne hne⟩
  | reset rest hs h => exact .inr (.inr ⟨rest, .inl hs⟩)
  | hold rest hs h => exact .inr (.inr ⟨rest, .inr hs⟩)
  | release rest hs h => subst h; exact absurd rfl hne

/-- Settles O51, by the agent whose turn it is. -/
theorem codeChangesOnlyAtCompletionOrReset : Obligations.CodeChangesOnlyAtCompletionOrReset := by
  intro s t h hne
  cases step_move h with
  | command rest hs hm =>
    obtain ⟨op, rd, a, b, stage, hp, hidle, hbusy, hdone⟩ := hm.of_code_ne hne
    exact .inl ⟨op, rd, a, b, stage, rest, hp, hs, hidle, hbusy, hdone⟩
  | read r rest v hs hr h => subst h; exact absurd rfl hne
  | write a rest hs hr hm =>
    obtain ⟨why, hwrite⟩ := hm.of_code_ne hne
    exact .inr (.inl ⟨a, rest, why, hs, hwrite⟩)
  | reset rest hs h => exact .inr (.inr ⟨rest, .inl hs⟩)
  | hold rest hs h => exact .inr (.inr ⟨rest, .inr hs⟩)
  | release rest hs h => subst h; exact absurd rfl hne

end Sys2Proof.Machine
end

section
/-! The extended Euclidean datapath: its results do not depend on its old contents (R33), and it never overflows (R100). -/

namespace Sys2Proof.Machine

/-! ## Independence of the old contents -/

/-- The quotient register is written before it is read: with φ ≥ 1 the first iteration leaves nothing of the old registers (R96). -/
theorem extEuclid_ignores_old {phi : Word} (hphi : phi ≠ 0) (e : Word) (r r' : EuclidRegs) : extEuclid e phi r = extEuclid e phi r' := by
  have iterated (r : EuclidRegs) : extEuclid e phi r = euclidLoop 63 (r.load e phi).iterate := if_neg hphi
  rw [iterated r, iterated r']
  rfl

theorem invStart_action_ignores_datapath (e phi : Word) (dp dp' : Datapath) : (invStart e phi dp).action = (invStart e phi dp').action := by
  simp only [invStart]
  split
  · rfl
  · next hphi => rw [extEuclid_ignores_old hphi e dp.euclid dp'.euclid]

theorem isprimeStart_action_ignores_datapath (n : Word) (dp dp' : Datapath) : (isprimeStart n dp).action = (isprimeStart n dp').action := by
  simp only [isprimeStart]
  split <;> rfl

theorem seleOnWord_action_ignores_datapath (phi : Word) (w : Half) (dp dp' : Datapath) :
    (seleOnWord phi w dp).action = (seleOnWord phi w dp').action := by
  simp only [seleOnWord]
  split <;> rfl

/-- Settles O37: only INV computes in the datapath registers it was given, and it loads them first. -/
theorem resultsIgnoreTheOldDatapath : Obligations.ResultsIgnoreTheOldDatapath := by
  constructor
  · intro op a b dp dp'
    cases op with
    | genp => rfl
    | tot => rfl
    | sele => rfl
    | inv => exact invStart_action_ignores_datapath a b dp dp'
    | gcd => rfl
    | isprime => exact isprimeStart_action_ignores_datapath a dp dp'
  · intro op a w dp dp'
    cases op with
    | genp => rfl
    | sele => exact congrArg some (seleOnWord_action_ignores_datapath a w dp dp')
    | tot => rfl
    | inv => rfl
    | gcd => rfl
    | isprime => rfl

/-! ## The datapath against the algorithm on unbounded integers -/

/-- What holds of one column of coefficients (x or y) beside the remainders `a` and `b` of R96: the signs alternate, the magnitudes weighted by the
remainders keep one total, and the magnitudes fit in 32 bits. -/
structure Column (a b : Nat) (c0 c1 : Int) (total : Nat) : Prop where
  opposite : c0 * c1 ≤ 0
  weighted : (a : Int) * |c1| + (b : Int) * |c0| = total
  old_le : |c0| ≤ 2 ^ 32 - 1
  new_le : |c1| ≤ 2 ^ 32 - 1

namespace Column

variable {a b total : Nat} {c0 c1 : Int}

/-- Where the signs alternate, the magnitudes of the next coefficient's two terms add up. -/
theorem abs_next (h : Column a b c0 c1 total) (q : Nat) : |c0 - q * c1| = |c0| + q * |c1| := by
  have hq : (0 : Int) ≤ q := Int.natCast_nonneg q
  rcases mul_nonpos_iff.mp h.opposite with ⟨h0, h1⟩ | ⟨h0, h1⟩
  · have hdiff : 0 ≤ c0 - q * c1 := sub_nonneg.mpr ((mul_nonpos_of_nonneg_of_nonpos hq h1).trans h0)
    rw [abs_of_nonneg hdiff, abs_of_nonneg h0, abs_of_nonpos h1]
    ring
  · have hdiff : c0 - q * c1 ≤ 0 := sub_nonpos.mpr (h0.trans (mul_nonneg hq h1))
    rw [abs_of_nonpos hdiff, abs_of_nonpos h0, abs_of_nonneg h1]
    ring

/-- One iteration keeps the total. -/
theorem weighted_next (h : Column a b c0 c1 total) : (b : Int) * |c0 - (a / b : Nat) * c1| + (a % b : Nat) * |c1| = total := by
  have hdiv : (a : Int) = b * (a / b : Nat) + (a % b : Nat) := by exact_mod_cast (Nat.div_add_mod a b).symm
  rw [h.abs_next, ← h.weighted, hdiv]
  ring

/-- As long as a divisor is left, the magnitudes that the next coefficient is made of are together at most the total. -/
theorem abs_add_le (h : Column a b c0 c1 total) (hb : b ≠ 0) : |c0| + (a / b : Nat) * |c1| ≤ total := by
  have hb1 : (1 : Int) ≤ b := by exact_mod_cast Nat.one_le_iff_ne_zero.mpr hb
  have hsum : 0 ≤ |c0| + (a / b : Nat) * |c1| := by positivity
  have hrest : 0 ≤ ((a % b : Nat) : Int) * |c1| := by positivity
  calc |c0| + (a / b : Nat) * |c1| ≤ b * (|c0| + (a / b : Nat) * |c1|) := le_mul_of_one_le_left hsum hb1
    _ ≤ b * (|c0| + (a / b : Nat) * |c1|) + (a % b : Nat) * |c1| := le_add_of_nonneg_right hrest
    _ = total := by rw [← h.abs_next, h.weighted_next]

/-- The product of R96 stays within 32 bits of magnitude. -/
theorem product_le (h : Column a b c0 c1 total) (hb : b ≠ 0) (ht : total ≤ 2 ^ 32 - 1) : |((a / b : Nat) : Int) * c1| ≤ 2 ^ 32 - 1 := by
  have hsum := h.abs_add_le hb
  have h0 : 0 ≤ |c0| := abs_nonneg c0
  rw [abs_mul, Nat.abs_cast]
  omega

/-- One iteration of R96 keeps the column. -/
theorem next (h : Column a b c0 c1 total) (hb : b ≠ 0) (ht : total ≤ 2 ^ 32 - 1) : Column b (a % b) c1 (c0 - (a / b : Nat) * c1) total where
  opposite := by
    have hsq : 0 ≤ ((a / b : Nat) : Int) * (c1 * c1) := mul_nonneg (Int.natCast_nonneg _) (mul_self_nonneg c1)
    calc c1 * (c0 - (a / b : Nat) * c1) = c0 * c1 - (a / b : Nat) * (c1 * c1) := by ring
      _ ≤ 0 := sub_nonpos.mpr (h.opposite.trans hsq)
  weighted := h.weighted_next
  old_le := h.new_le
  new_le := by
    have hsum := h.abs_add_le hb
    rw [h.abs_next]
    omega

end Column

/-- A u32 quotient in the 64-bit representation of the coefficients keeps its value. -/
theorem toInt_setWidth_word (q : Word) : (q.setWidth 64).toInt = q.toNat := by
  have hq := q.isLt
  rw [BitVec.toInt_eq_toNat_of_lt (by rw [BitVec.toNat_setWidth_of_le (by decide)]; omega), BitVec.toNat_setWidth_of_le (by decide)]

/-- The s64 update of R96 is exact where the old coefficient and the product fit in 32 bits of magnitude. -/
theorem toInt_sub_mul {c0 c1 : Coef} {q : Word} (h0 : |c0.toInt| ≤ 2 ^ 32 - 1) (hp : |(q.toNat : Int) * c1.toInt| ≤ 2 ^ 32 - 1) :
    (c0 - q.setWidth 64 * c1).toInt = c0.toInt - q.toNat * c1.toInt := by
  rw [abs_le] at h0 hp
  rw [BitVec.toInt_sub, BitVec.toInt_mul, toInt_setWidth_word, Int.bmod_eq_of_le (n := (q.toNat : Int) * c1.toInt) (by omega) (by omega),
    Int.bmod_eq_of_le (by omega) (by omega)]

/-- The u32 remainder of R96 is exact. -/
theorem toNat_sub_div_mul (a b : Word) : (a - a / b * b).toNat = a.toNat % b.toNat := by
  have hle : a.toNat / b.toNat * b.toNat ≤ a.toNat := Nat.div_mul_le_self ..
  have hmul : (a / b * b).toNat = a.toNat / b.toNat * b.toNat := by
    rw [BitVec.toNat_mul, BitVec.toNat_udiv, Nat.mod_eq_of_lt (hle.trans_lt a.isLt)]
  rw [BitVec.toNat_sub_of_le (by rw [BitVec.le_def, hmul]; exact hle), hmul, Nat.mod_eq_sub_div_mul]

/-- The machine's registers hold the values of the algorithm on unbounded integers, and both columns of coefficients are bounded. -/
structure TracksExact (e phi : Word) (m : EuclidRegs) (x : ExactRegs) : Prop where
  a : m.a.toNat = x.a
  b : m.b.toNat = x.b
  x0 : m.x0.toInt = x.x0
  x1 : m.x1.toInt = x.x1
  y0 : m.y0.toInt = x.y0
  y1 : m.y1.toInt = x.y1
  columnX : Column x.a x.b x.x0 x.x1 phi.toNat
  columnY : Column x.a x.b x.y0 x.y1 e.toNat

theorem tracksExact_load (e phi : Word) (r : EuclidRegs) : TracksExact e phi (r.load e phi) (exactStart e phi) where
  a := rfl
  b := rfl
  x0 := rfl
  x1 := rfl
  y0 := rfl
  y1 := rfl
  columnX := by constructor <;> simp [exactStart]
  columnY := by constructor <;> simp [exactStart]

theorem word_toNat_le (w : Word) : w.toNat ≤ 2 ^ 32 - 1 := Nat.le_sub_one_of_lt w.isLt

/-- One iteration of the machine is one on unbounded integers. -/
theorem TracksExact.iterate {e phi : Word} {m : EuclidRegs} {x : ExactRegs} (h : TracksExact e phi m x) (hb : x.b ≠ 0) :
    TracksExact e phi m.iterate x.iterate := by
  have hq : (m.a / m.b).toNat = x.a / x.b := by rw [BitVec.toNat_udiv, h.a, h.b]
  have update {c0 c1 : Coef} {total : Nat} (hc : Column x.a x.b c0.toInt c1.toInt total) (ht : total ≤ 2 ^ 32 - 1) :
      (c0 - (m.a / m.b).setWidth 64 * c1).toInt = c0.toInt - (x.a / x.b : Nat) * c1.toInt := by
    rw [toInt_sub_mul hc.old_le (by rw [hq]; exact hc.product_le hb ht), hq]
  have hx := h.columnX
  have hy := h.columnY
  exact {
    a := h.b
    b := by rw [EuclidRegs.iterate, ExactRegs.iterate, toNat_sub_div_mul, h.a, h.b]
    x0 := h.x1
    x1 := by
      rw [← h.x0, ← h.x1] at hx
      rw [EuclidRegs.iterate, ExactRegs.iterate, update hx (word_toNat_le phi), h.x0, h.x1]
    y0 := h.y1
    y1 := by
      rw [← h.y0, ← h.y1] at hy
      rw [EuclidRegs.iterate, ExactRegs.iterate, update hy (word_toNat_le e), h.y0, h.y1]
    columnX := hx.next hb (word_toNat_le phi)
    columnY := hy.next hb (word_toNat_le e) }

/-- The machine's loop is the loop on unbounded integers, by induction on the iterations. -/
theorem TracksExact.loop {e phi : Word} (n : Nat) : ∀ {m : EuclidRegs} {x : ExactRegs}, TracksExact e phi m x →
    TracksExact e phi (euclidLoop n m) (exactLoop n x) := by
  induction n with
  | zero => exact fun h => h
  | succ n ih =>
    intro m x h
    have hzero : m.b = 0 ↔ x.b = 0 := by rw [← h.b, ← BitVec.toNat_inj]; rfl
    rw [euclidLoop, exactLoop]
    by_cases hb : x.b = 0
    · rwa [if_pos (hzero.mpr hb), if_pos hb]
    · rw [if_neg (mt hzero.mp hb), if_neg hb]
      exact ih (h.iterate hb)

/-- Settles O35: the registers track the exact values, whose columns of coefficients are bounded. -/
theorem signedDatapathNeverOverflows : Obligations.SignedDatapathNeverOverflows := by
  intro e phi r n _
  have h := (tracksExact_load e phi r).loop n
  refine ⟨h.a, h.b, h.x0, h.x1, h.y0, h.y1, h.columnX.old_le, h.columnX.new_le, h.columnY.old_le, h.columnY.new_le, fun hb => ⟨?_, ?_⟩⟩
  · exact (h.columnX.product_le hb (word_toNat_le phi)).trans (by norm_num)
  · exact (h.columnY.product_le hb (word_toNat_le e)).trans (by norm_num)

end Sys2Proof.Machine
end

section
/-! The register window: its addresses (R35), its map and byte lanes (R36, R37), and what a host's access of each offset does (R38–R40). -/

namespace Sys2Proof.Machine

/-! ## The window and its bytes -/

/-- An address in a window at a multiple of 64 reaches the offset of its low six bits (R35). -/
theorem windowOffset_of_mem {block addr : Nat} (hlo : 64 * block ≤ addr) (hhi : addr < 64 * block + 64) :
    windowOffset (64 * block) addr = some (BitVec.ofNat 6 (addr % 64)) := by
  have hoff : addr - 64 * block = addr % 64 := by omega
  rw [windowOffset, if_pos ⟨hlo, hhi⟩, hoff]

/-- An address outside the window does not reach the block (R35). -/
theorem windowOffset_of_not_mem {base addr : Nat} (h : addr < base ∨ base + 64 ≤ addr) : windowOffset base addr = none :=
  if_neg fun ⟨hlo, hhi⟩ => h.elim (Nat.not_lt.mpr hlo) (Nat.not_le.mpr hhi)

/-- Settles O46: MIE_BASE is 64 times the number of blocks below it. -/
theorem windowDecodesLowSixBits : Obligations.WindowDecodesLowSixBits :=
  ⟨Nat.mul_mod_right 64 Config.mieBlock, fun _ =>
    ⟨fun ⟨hlo, hhi⟩ => windowOffset_of_mem hlo (Nat.lt_succ_of_le hhi), windowOffset_of_not_mem⟩⟩

/-- What an offset selects depends on its word only: its low two bits are the byte lane (R36, R37). -/
theorem targetOf_congr {off off' : BitVec 6} (h : off.toNat / 4 = off'.toNat / 4) : targetOf off = targetOf off' := by
  simp only [targetOf, h]

/-- The byte at 4n + j is lane j of the register at 4n (R37). -/
theorem windowByte_eq_byteLane (s : State) {off off' : BitVec 6} {j : Nat} (ha : off.toNat % 4 = 0) (hj : j < 4)
    (hoff : off'.toNat = off.toNat + j) : windowByte s off' = byteLane (readTarget s (targetOf off)) j := by
  have htarget : targetOf off' = targetOf off := targetOf_congr (by omega)
  have hlane : off'.toNat % 4 = j := by omega
  rw [windowByte, htarget, hlane]

/-- Settles O45: the four bytes are the register's lanes, and a word is the word of its lanes. -/
theorem bytesAreLittleEndianLanes : Obligations.BytesAreLittleEndianLanes := by
  intro s off ha
  rw [windowByte_eq_byteLane s (off' := off) (j := 0) ha (by decide) rfl,
    windowByte_eq_byteLane s (off' := off + 1) (j := 1) ha (by decide) (by bv_omega),
    windowByte_eq_byteLane s (off' := off + 2) (j := 2) ha (by decide) (by bv_omega),
    windowByte_eq_byteLane s (off' := off + 3) (j := 3) ha (by decide) (by bv_omega), Laws.wordOfLanes_byteLane]

/-! ## The register map -/

theorem targetOf_cmd {off : BitVec 6} (h : off.toNat = 0x00) : targetOf off = .cmd :=
  targetOf_congr (off' := 0x00) (by rw [h]; rfl)

theorem targetOf_status {off : BitVec 6} (h : off.toNat = 0x04) : targetOf off = .status :=
  targetOf_congr (off' := 0x04) (by rw [h]; rfl)

theorem targetOf_drawCnt {off : BitVec 6} (h : off.toNat = 0x08) : targetOf off = .drawCnt :=
  targetOf_congr (off' := 0x08) (by rw [h]; rfl)

theorem targetOf_reserved {off : BitVec 6} (hlo : 0x0C ≤ off.toNat) (hhi : off.toNat < 0x20) : targetOf off = .reserved := by
  simp only [targetOf]
  rw [if_neg (by omega), if_neg (by omega), if_neg (by omega), if_pos (by omega)]

theorem targetOf_reg {off : BitVec 6} {k : RegIdx} (h : off.toNat = 0x20 + 4 * k.toNat) : targetOf off = .reg k := by
  have hk : off.toNat / 4 - 8 = k.toNat := by omega
  simp only [targetOf]
  rw [if_neg (by omega), if_neg (by omega), if_neg (by omega), if_neg (by omega), hk, BitVec.ofNat_toNat, BitVec.setWidth_eq]

/-! ## The turn of a host -/

/-- The block serves aligned 32-bit reads (R40). -/
theorem ReadAccess.wellFormed_iff (r : ReadAccess) : r.wellFormed = true ↔ r.size = 4 ∧ r.off.toNat % 4 = 0 := by
  simp [ReadAccess.wellFormed, aligned]

/-- The block serves aligned 32-bit writes with all four strobes (R40). -/
theorem WriteAccess.wellFormed_iff (a : WriteAccess) : a.wellFormed = true ↔ a.size = 4 ∧ a.off.toNat % 4 = 0 ∧ a.strb = 0b1111 := by
  simp [WriteAccess.wellFormed, aligned, and_assoc]

section
variable {s : State} {rest : List Event}

theorem step_hostRead {r : ReadAccess} (hs : s.inputs = .hostRead r :: rest) (hr : s.resetHeld = false) :
    step s = .next (hostRead r { s with inputs := rest }) := by
  rw [step_cons hs]
  exact if_neg (by simp [hr])

theorem step_hostWrite {a : WriteAccess} (hs : s.inputs = .hostWrite a :: rest) (hr : s.resetHeld = false) :
    step s = hostWrite a { s with inputs := rest } := by
  rw [step_cons hs]
  exact if_neg (by simp [hr])

/-- What a register reads as does not depend on the schedule. -/
@[simp] theorem readTarget_inputs (s : State) (l : List Event) (t : Target) : readTarget { s with inputs := l } t = readTarget s t := by
  cases t <;> rfl

/-- A well-formed read is answered with the register at its offset (R38). -/
theorem step_read_served {r : ReadAccess} (hs : s.inputs = .hostRead r :: rest) (hr : s.resetHeld = false) (hw : r.wellFormed = true) :
    step s = .next { s with inputs := rest, resp := some (.data (readTarget s (targetOf r.off))) } := by
  rw [step_hostRead hs hr, hostRead, if_pos hw, readTarget_inputs]

/-- A well-formed write acts on what its offset selects (R39). -/
theorem step_write_served {a : WriteAccess} (hs : s.inputs = .hostWrite a :: rest) (hr : s.resetHeld = false) (hw : a.wellFormed = true) :
    step s = writeTarget (targetOf a.off) a.data { s with inputs := rest, resp := some .written } := by
  rw [step_hostWrite hs hr, hostWrite, if_pos hw]

end

/-- Settles O6. -/
theorem stepRunsTheDecodedCommand : Obligations.StepRunsTheDecodedCommand :=
  fun _ _ _ _ hs hw ho hr hd => step_cmd_legal hs hw ho hr hd

/-- Settles O41: the value read is that of the register the offset selects. -/
theorem readsReturnTheRegisterMap : Obligations.ReadsReturnTheRegisterMap := by
  intro s off rest hr hs ha
  refine ⟨readTarget s (targetOf off), step_read_served hs hr ((ReadAccess.wellFormed_iff _).mpr ⟨rfl, ha⟩), ?_, ?_, ?_, ?_, ?_⟩
  · intro h; rw [targetOf_cmd h]; rfl
  · intro h; rw [targetOf_status h]; rfl
  · intro h; rw [targetOf_drawCnt h]; rfl
  · rintro ⟨hlo, hhi⟩; rw [targetOf_reserved hlo (by omega)]; rfl
  · intro k h; rw [targetOf_reg h]; rfl

/-- Settles O42, by the register the offset selects. -/
theorem writesFollowTheTable : Obligations.WritesFollowTheTable := by
  intro s off v rest hr hs ha
  have hstep : step s = writeTarget (targetOf off) v { s with inputs := rest, resp := some .written } :=
    step_write_served hs hr ((WriteAccess.wellFormed_iff _).mpr ⟨rfl, ha, rfl⟩)
  refine ⟨?_, ?_, ?_, ?_⟩
  · intro h
    rw [hstep, targetOf_status h]
    rfl
  · rintro ⟨hlo, hhi⟩
    rcases (show off.toNat = 0x08 ∨ 0x0C ≤ off.toNat by omega) with h | h
    · rw [hstep, targetOf_drawCnt h]
      rfl
    · rw [hstep, targetOf_reserved h (by omega)]
      rfl
  · intro k h hb
    rw [hstep, targetOf_reg h, writeTarget, writeOperand, if_pos hb]
    rfl
  · intro k h hb
    rw [hstep, targetOf_reg h, writeTarget, writeOperand, if_neg (by simp [hb])]
    exact ⟨_, rfl, readReg_writeReg_same .., fun j hj => readReg_writeReg_other _ v hj, rfl⟩

/-- Settles O43: the check of R40 comes before everything else. -/
theorem malformedAccessHasNoEffect : Obligations.MalformedAccessHasNoEffect := by
  refine ⟨?_, ?_, rfl⟩
  · intro s r rest hr hs hbad
    have hw : ¬ r.wellFormed = true := by
      rw [ReadAccess.wellFormed_iff]
      tauto
    rw [step_hostRead hs hr, hostRead, if_neg hw]
    rfl
  · intro s a rest hr hs hbad
    have hw : ¬ a.wellFormed = true := by
      rw [WriteAccess.wellFormed_iff]
      tauto
    rw [step_hostWrite hs hr, hostWrite, if_neg hw]
    rfl

end Sys2Proof.Machine
end

section
/-! The encoding (30_encoding.md): the decoder and the encoder determine each other (R57, R61), and R56's table and R58's list of illegal words both
say which fields make a command. -/

namespace Sys2Proof

/-! ## The fields an opcode accepts -/

/-- The fields R56 allows in a word with this opcode: reserved bits and unused register fields are 0. -/
def Opcode.Accepts (op : Opcode) (f : CommandFields) : Prop :=
  f.op = op.bits ∧ f.reserved7 = 0 ∧ (op.usesRs1 = true ∨ f.rs1 = 0) ∧ f.reserved11 = 0 ∧ (op.usesRs2 = true ∨ f.rs2 = 0) ∧ f.reservedHigh = 0

/-- A command's unused register fields are 0. -/
theorem Instr.opcode_accepts_fields (i : Instr) : i.opcode.Accepts i.fields := by
  cases i <;> simp [Opcode.Accepts, Instr.fields, Instr.opcode, Opcode.usesRs1, Opcode.usesRs2, Instr.rs1, Instr.rs2]

@[simp] theorem instrOf_opcode (op : Opcode) (rd rs1 rs2 : RegIdx) : (instrOf op rd rs1 rs2).opcode = op := by
  cases op <;> rfl

/-- Accepted fields are those of the command they name. -/
theorem Opcode.Accepts.instrOf_fields {op : Opcode} {f : CommandFields} (h : op.Accepts f) : (instrOf op f.rd f.rs1 f.rs2).fields = f := by
  obtain ⟨o, rd, r7, rs1, r11, rs2, high⟩ := f
  obtain ⟨hop, h7, h1, h11, h2, hhigh⟩ := h
  cases op <;> simp_all [Instr.fields, instrOf, Instr.opcode, Instr.rd, Instr.rs1, Instr.rs2, Opcode.usesRs1, Opcode.usesRs2]

/-! ## The decoder reads exactly the fields of commands -/

/-- The fields of a command decode to it. -/
theorem decodeFields_fields (i : Instr) : decodeFields i.fields = .legal i := by
  cases i <;> rfl

/-- Fields that decode to a command are accepted by an opcode, and the command is read from them (R57). -/
theorem accepts_of_decodeFields {f : CommandFields} {i : Instr} (h : decodeFields f = .legal i) :
    ∃ op : Opcode, op.Accepts f ∧ instrOf op f.rd f.rs1 f.rs2 = i := by
  unfold decodeFields at h
  split at h
  · cases h
  next hreserved =>
    cases hop : Opcode.ofBits f.op with
    | none => simp [hop] at h
    | some op =>
      have hbits : f.op = op.bits := Laws.bits_of_ofBits hop
      refine ⟨op, ?_⟩
      rw [hop] at h
      cases op <;> grind [Opcode.Accepts, Opcode.usesRs1, Opcode.usesRs2]

/-- Fields decode to a command exactly when they are its fields. -/
theorem decodeFields_eq_legal {f : CommandFields} {i : Instr} : decodeFields f = .legal i ↔ f = i.fields := by
  constructor
  · intro h
    obtain ⟨op, haccepts, rfl⟩ := accepts_of_decodeFields h
    exact haccepts.instrOf_fields.symm
  · rintro rfl
    exact decodeFields_fields i

/-- A word decodes to the command whose fields it has (R57). -/
theorem decode_eq_legal {w : Word} {i : Instr} : decode w = .legal i ↔ fieldsOf w = i.fields :=
  decodeFields_eq_legal

/-- A word decodes to a command of an opcode exactly when the opcode accepts its fields. -/
theorem Opcode.accepts_fieldsOf_iff {op : Opcode} {w : Word} : op.Accepts (fieldsOf w) ↔ ∃ i, decode w = .legal i ∧ i.opcode = op := by
  simp only [decode_eq_legal]
  constructor
  · exact fun h => ⟨_, h.instrOf_fields.symm, instrOf_opcode ..⟩
  · rintro ⟨i, hfields, rfl⟩
    exact hfields ▸ i.opcode_accepts_fields

/-- A word and its fields determine each other (R52). -/
theorem fieldsOf_eq_iff {w : Word} {f : CommandFields} : fieldsOf w = f ↔ w = packFields f := by
  constructor
  · rintro rfl
    exact (Laws.packFields_fieldsOf w).symm
  · rintro rfl
    exact Laws.fieldsOf_packFields f

/-- Settles O2: a command's fields determine it and its word. -/
theorem legalWordsAreExactlyTheEncodings : Obligations.LegalWordsAreExactlyTheEncodings := fun _ _ =>
  decode_eq_legal.trans fieldsOf_eq_iff

/-- Settles O1: the command's word is the one word that decodes to it, and its bytes decode as it does. -/
theorem decodeOfEncodeIsTheCommand : Obligations.DecodeOfEncodeIsTheCommand := fun i _ =>
  have hdecode : decode (encode i) = .legal i := (legalWordsAreExactlyTheEncodings _ _).mpr rfl
  ⟨hdecode, (Laws.decodeBytes_lanesOfWord _).trans hdecode⟩

/-! ## R56's table -/

/-- The bits that R56 fixes in a word of an opcode, field by field: all but RD and the register fields it uses. -/
def Opcode.fixedBits (op : Opcode) : CommandFields :=
  { op := BitVec.allOnes 4
    rd := 0
    reserved7 := BitVec.allOnes 1
    rs1 := if op.usesRs1 then 0 else BitVec.allOnes 3
    reserved11 := BitVec.allOnes 1
    rs2 := if op.usesRs2 then 0 else BitVec.allOnes 3
    reservedHigh := BitVec.allOnes 17 }

/-- An opcode's row of R56's table: the fixed bits are those of the opcode, and 0 elsewhere. -/
def Opcode.row (op : Opcode) : EncodingRow :=
  ⟨op, packFields ⟨op.bits, 0, 0, 0, 0, 0, 0⟩, packFields op.fixedBits⟩

theorem encodingRows_eq : encodingRows = [Opcode.genp, .tot, .sele, .inv, .gcd, .isprime].map Opcode.row := by
  decide

/-- R56's table holds one row for each opcode. -/
theorem mem_encodingRows_iff {r : EncodingRow} : r ∈ encodingRows ↔ r = r.op.row := by
  rw [encodingRows_eq, List.mem_map]
  constructor
  · rintro ⟨op, -, rfl⟩
    rfl
  · exact fun h => ⟨r.op, by cases r.op <;> decide, h.symm⟩

/-- The fields of a bitwise AND are the ANDs of the fields. -/
theorem fieldsOf_and (v w : Word) : fieldsOf (v &&& w) =
    { op := (fieldsOf v).op &&& (fieldsOf w).op
      rd := (fieldsOf v).rd &&& (fieldsOf w).rd
      reserved7 := (fieldsOf v).reserved7 &&& (fieldsOf w).reserved7
      rs1 := (fieldsOf v).rs1 &&& (fieldsOf w).rs1
      reserved11 := (fieldsOf v).reserved11 &&& (fieldsOf w).reserved11
      rs2 := (fieldsOf v).rs2 &&& (fieldsOf w).rs2
      reservedHigh := (fieldsOf v).reservedHigh &&& (fieldsOf w).reservedHigh } := by
  simp [fieldsOf, bitField, BitVec.extractLsb'_and]

/-- A masked register field is 0 exactly when its opcode uses it or it is 0. -/
theorem and_unused_mask_eq_zero_iff (used : Bool) (v : RegIdx) :
    v &&& (if used then 0 else BitVec.allOnes 3) = 0 ↔ used = true ∨ v = 0 := by
  cases used with
  | true => simp
  | false => simpa only [Bool.false_eq_true, if_false, false_or] using Eq.congr_left BitVec.and_allOnes

/-- A word matches an opcode's row exactly when the opcode accepts its fields (R56). -/
theorem Opcode.row_matches_iff {op : Opcode} {w : Word} : op.row.matches w = true ↔ op.Accepts (fieldsOf w) := by
  rw [EncodingRow.matches, beq_iff_eq, Opcode.row, ← fieldsOf_eq_iff, fieldsOf_and, Laws.fieldsOf_packFields]
  have hrd : (fieldsOf w).rd &&& 0 = 0 := BitVec.and_zero
  simp only [Opcode.fixedBits, CommandFields.mk.injEq, and_unused_mask_eq_zero_iff, BitVec.and_allOnes, hrd, true_and, Opcode.Accepts]

/-- A word matches a row of the table exactly when it decodes to a command of the row's opcode. -/
theorem matches_iff_decode {w : Word} {r : EncodingRow} (hr : r ∈ encodingRows) :
    r.matches w = true ↔ ∃ i : Instr, decode w = .legal i ∧ i.opcode = r.op := by
  rw [mem_encodingRows_iff.mp hr, Opcode.row_matches_iff, Opcode.accepts_fieldsOf_iff]
  rfl

/-- Settles O3: a word decodes to one command, whose opcode's row is the one it matches. -/
theorem legalExactlyWhenOneRowMatches : Obligations.LegalExactlyWhenOneRowMatches := by
  refine ⟨fun w r => matches_iff_decode, fun w i hd => ?_, fun w r r' hr hr' h h' => ?_⟩
  · have hmem : i.opcode.row ∈ encodingRows := mem_encodingRows_iff.mpr rfl
    exact ⟨_, hmem, (matches_iff_decode hmem).mpr ⟨i, hd, rfl⟩⟩
  · obtain ⟨i, hd, hop⟩ := (matches_iff_decode hr).mp h
    obtain ⟨i', hd', hop'⟩ := (matches_iff_decode hr').mp h'
    obtain rfl : i = i' := Decoded.legal.inj (hd.symm.trans hd')
    rw [mem_encodingRows_iff.mp hr, mem_encodingRows_iff.mp hr', ← hop, hop']

/-! ## R58's illegal words -/

/-- The six opcodes of R55. -/
theorem Opcode.forall_iff {P : Opcode → Prop} : (∀ op, P op) ↔ P .genp ∧ P .tot ∧ P .sele ∧ P .inv ∧ P .gcd ∧ P .isprime :=
  ⟨fun h => ⟨h _, h _, h _, h _, h _, h _⟩, fun ⟨hgenp, htot, hsele, hinv, hgcd, hisprime⟩ op => by cases op <;> assumption⟩

/-- The decoder rejects a word exactly when no opcode accepts its fields. -/
theorem decode_illegal_iff {w : Word} : (∃ why, decode w = .illegal why) ↔ ∀ op : Opcode, ¬ op.Accepts (fieldsOf w) := by
  simp only [Opcode.accepts_fieldsOf_iff]
  cases decode w <;> simp

/-- The value of a field, in the arithmetic of the word. -/
theorem bitField_eq_iff {w : Word} {lo n : Nat} {v : BitVec n} : bitField w lo n = v ↔ w.toNat / 2 ^ lo % 2 ^ n = v.toNat := by
  rw [← BitVec.toNat_inj, bitField, BitVec.extractLsb'_toNat, Nat.shiftRight_eq_div_pow]

/-- Which fields an opcode accepts, in the arithmetic of the word. -/
theorem Opcode.accepts_fieldsOf_iff_toNat {op : Opcode} {w : Word} : op.Accepts (fieldsOf w) ↔
    w.toNat % 16 = op.bits.toNat ∧ w.toNat / 2 ^ 7 % 2 = 0 ∧ (op.usesRs1 = true ∨ w.toNat / 2 ^ 8 % 8 = 0) ∧ w.toNat / 2 ^ 11 % 2 = 0 ∧
      (op.usesRs2 = true ∨ w.toNat / 2 ^ 12 % 8 = 0) ∧ w.toNat / 2 ^ 15 = 0 := by
  have hhigh : w.toNat / 2 ^ 15 % 2 ^ 17 = w.toNat / 2 ^ 15 := Nat.mod_eq_of_lt (by omega)
  simp only [Opcode.Accepts, fieldsOf, bitField_eq_iff, hhigh]
  simp

/-- Settles O4: none of the six opcodes accepts the word's fields. -/
theorem illegalWordsByTheirBits : Obligations.IllegalWordsByTheirBits := by
  intro w
  rw [decode_illegal_iff, Opcode.forall_iff]
  simp only [Opcode.accepts_fieldsOf_iff_toNat, Opcode.bits, Opcode.usesRs1, Opcode.usesRs2]
  simp only [BitVec.reduceToNat, reduceCtorEq, true_or, false_or, true_and]
  omega

/-- Settles O5, by running the decoder. -/
theorem sampleWordsDecode : Obligations.SampleWordsDecode := by
  unfold Obligations.SampleWordsDecode
  decide

end Sys2Proof
end

section
/-! The turns of a command in progress: its engine step, the delivery of a word it waits for (R66, R68), and that neither reads a register (R65). -/

namespace Sys2Proof.Machine

/-! ## One turn -/

section
variable {s : State} {rest : List Event} {op : Opcode} {rd : RegIdx} {a b : Word}

/-- The engine's turn on an accepted command ends as the command's family rule says (R68, R69). -/
theorem step_engine_compute (hp : s.phase = .busy op rd a b .compute) (ht : engineTurn s.inputs = some rest) :
    step s = .next (perform op rd a b (engineExec op a b s.datapath) { s with inputs := rest }) := by
  rw [step_engineTurn ht]
  simp only [engineStep, hp]

/-- The delivery of a requested word counts it and ends as the command's continuation says (R66, R69). -/
theorem step_deliver_requested {w : Half} {o : Outturn} (hp : s.phase = .busy op rd a b .awaitDraw) (he : s.entPending = true)
    (hs : s.inputs = .deliver w :: rest) (ho : onWord op a w s.datapath = some o) :
    step s = .next (perform op rd a b o (countWord { s with inputs := rest })) := by
  rw [step_cons hs]
  simp only [takeTurn, entropyTurn, he, if_true, deliverWord, hp, ho]

/-- A requested word goes on to a next state only where a drawing command waits for it. -/
theorem waiting_of_step_deliver {w : Half} {t : State} (he : s.entPending = true) (hs : s.inputs = .deliver w :: rest) (h : step s = .next t) :
    ∃ op rd a b o, s.phase = .busy op rd a b .awaitDraw ∧ onWord op a w s.datapath = some o := by
  cases hd : deliverWord w { s with inputs := rest } with
  | none =>
    rw [step_cons hs, takeTurn, entropyTurn, if_pos he, hd] at h
    cases h
  | some u =>
    obtain ⟨op, rd, a, b, o, hp, ho, -⟩ := deliverWord_some hd
    exact ⟨op, rd, a, b, o, hp, ho⟩

theorem perform_complete {o : Outturn} {c : Completion} (h : o.action = .complete c) (s : State) :
    perform op rd a b o s = complete rd c { s with datapath := o.datapath } := by
  simp only [perform, h]

theorem perform_draw {o : Outturn} (h : o.action = .draw) (s : State) :
    perform op rd a b o s = requestDraw op rd a b { s with datapath := o.datapath } := by
  simp only [perform, h]

/-- A completion ends the command of every state with the same registers, OVR and reset input. -/
theorem complete_endsWith {u : State} {c : Completion} {draws : Word} (hregs : u.regs = s.regs) (hovr : u.ovr = s.ovr)
    (hheld : u.resetHeld = s.resetHeld) (hpend : u.entPending = false) (hdraws : u.drawCnt = draws) :
    EndsWith s (complete rd c u) rd c draws := by
  have h := complete_ends u rd c hpend
  exact ⟨h.result, fun hc => (h.failed hc).trans (readReg_congr hregs rd), fun k hk => (h.others k hk).trans (readReg_congr hregs k), h.code, h.done,
    h.busy, h.phase, h.pending, h.draws.trans hdraws, h.ovr.trans hovr, h.held.trans hheld⟩

end

/-! ## An accepted command reads no register -/

/-- A turn of a command in progress does the same whatever register file is put in: it passes, or it is one outturn performed on one state. -/
theorem step_with_other_regs {s t : State} {rest : List Event} {op : Opcode} {rd : RegIdx} {a b : Word} {stage : Stage}
    (hp : s.phase = .busy op rd a b stage) (hturn : CommandTurn s.inputs rest) (h : step s = .next t) :
    (∀ regs, step { s with regs := regs } = .next { s with regs := regs, inputs := rest }) ∨
    ∃ (o : Outturn) (g : State), ∀ regs, step { s with regs := regs } = .next (perform op rd a b o { g with regs := regs }) := by
  rcases hturn with he | ⟨w, hw⟩
  · cases stage with
    | compute =>
      exact .inr ⟨engineExec op a b s.datapath, { s with inputs := rest }, fun regs => step_engine_compute (s := { s with regs := regs }) hp he⟩
    | awaitDraw =>
      refine .inl fun regs => ?_
      rw [step_engineTurn (s := { s with regs := regs }) he, engineStep_of_not_compute (by simp [hp])]
  · by_cases hpend : s.entPending = true
    · obtain ⟨op', rd', a', b', o, hp', ho⟩ := waiting_of_step_deliver hpend hw h
      rw [hp] at hp'
      cases hp'
      exact .inr ⟨o, countWord { s with inputs := rest }, fun regs => step_deliver_requested (s := { s with regs := regs }) hp hpend hw ho⟩
    · exact .inl fun regs => step_unrequested (s := { s with regs := regs }) hw (by simpa using hpend)

/-- An outturn performed on two register files writes the same value to RD of both and nothing else, or no register of either. -/
theorem perform_writes_alike (op : Opcode) (rd : RegIdx) (a b : Word) (o : Outturn) (s : State) (regs : Vector Word 8) :
    ((perform op rd a b o s).done = true ∧ (perform op rd a b o s).code = .ok ∧
      readReg (perform op rd a b o { s with regs := regs }) rd = readReg (perform op rd a b o s) rd ∧
      ∀ k, k ≠ rd → readReg (perform op rd a b o s) k = readReg s k ∧
        readReg (perform op rd a b o { s with regs := regs }) k = readReg { s with regs := regs } k) ∨
    ((perform op rd a b o s).regs = s.regs ∧ (perform op rd a b o { s with regs := regs }).regs = regs) := by
  cases hact : o.action with
  | draw =>
    rw [perform_draw hact, perform_draw hact]
    exact .inr ⟨rfl, rfl⟩
  | complete c =>
    rw [perform_complete hact, perform_complete hact]
    cases c with
    | ok v =>
      refine .inl ⟨rfl, rfl, ?_, fun k hk => ⟨readReg_complete_other _ _ hk, readReg_complete_other _ _ hk⟩⟩
      exact (readReg_writeReg_same ..).trans (readReg_writeReg_same ..).symm
    | noInverse => exact .inr ⟨rfl, rfl⟩
    | domain => exact .inr ⟨rfl, rfl⟩

/-- Apart from the registers, an outturn ends alike on two register files. -/
theorem perform_ends_alike (op : Opcode) (rd : RegIdx) (a b : Word) (o : Outturn) (s : State) (regs : Vector Word 8) :
    (perform op rd a b o { s with regs := regs }).phase = (perform op rd a b o s).phase ∧
    (perform op rd a b o { s with regs := regs }).busy = (perform op rd a b o s).busy ∧
    (perform op rd a b o { s with regs := regs }).done = (perform op rd a b o s).done ∧
    (perform op rd a b o { s with regs := regs }).code = (perform op rd a b o s).code ∧
    (perform op rd a b o { s with regs := regs }).drawCnt = (perform op rd a b o s).drawCnt ∧
    (perform op rd a b o { s with regs := regs }).entPending = (perform op rd a b o s).entPending := by
  cases hact : o.action with
  | draw =>
    rw [perform_draw hact, perform_draw hact]
    exact ⟨rfl, rfl, rfl, rfl, rfl, rfl⟩
  | complete c =>
    rw [perform_complete hact, perform_complete hact]
    simp

/-- Settles O12: the turn passes, or performs one outturn on both register files. -/
theorem acceptedCommandReadsNoRegister : Obligations.AcceptedCommandReadsNoRegister := by
  intro s regs rest op rd a b stage t hp hturn h
  rcases step_with_other_regs hp hturn h with hpass | ⟨o, g, hperform⟩
  · have ht : t = { s with inputs := rest } := Host.Outcome.next.inj (h.symm.trans (hpass s.regs))
    subst ht
    exact ⟨_, hpass regs, rfl, rfl, rfl, rfl, rfl, rfl, .inr ⟨rfl, rfl⟩⟩
  · have ht : t = perform op rd a b o { g with regs := s.regs } := Host.Outcome.next.inj (h.symm.trans (hperform s.regs))
    subst ht
    obtain ⟨hphase, hbusy, hdone, hcode, hdraw, hpend⟩ := perform_ends_alike op rd a b o { g with regs := s.regs } regs
    exact ⟨_, hperform regs, hphase, hbusy, hdone, hcode, hdraw, hpend, perform_writes_alike op rd a b o { g with regs := s.regs } regs⟩

/-! ## The lifecycle's single transitions -/

/-- Settles O8: the engine's turn leaves the state as it is, whether scheduled or at the end of the schedule. -/
theorem idleOrWaitingEngineTakesNoStep : Obligations.IdleOrWaitingEngineTakesNoStep := by
  intro s hphase
  have hturn {rest : List Event} (h : engineTurn s.inputs = some rest) : step s = .next { s with inputs := rest } := by
    rw [step_engineTurn h, engineStep_of_not_compute (s := { s with inputs := rest }) hphase]
  constructor
  · intro hs
    have hstep := hturn (rest := []) (by rw [hs]; rfl)
    rwa [← hs] at hstep
  · intro rest hs
    exact hturn (by rw [hs]; rfl)

/-- Settles O9: acceptance is the whole step. -/
theorem acceptanceLatchesOperands : Obligations.AcceptanceLatchesOperands :=
  fun _ i hb => exec_idle i hb

/-- A write of any word to CMD on a busy block is discarded (R64). -/
theorem writeCmd_busy (v : Word) {s : State} (hb : s.busy = true) : writeCmd v s = .next (overrun s) := by
  cases hd : decode v with
  | legal i => simp only [writeCmd, hd, exec_busy i hb]
  | illegal why => simp only [writeCmd, hd, hb, if_true]

/-- Settles O10: the served write reaches CMD, where the busy block discards the word. -/
theorem commandWhileBusyIsDiscarded : Obligations.CommandWhileBusyIsDiscarded := by
  refine fun s hb => ⟨fun i => exec_busy i hb, fun a rest hs hw ho hr => ?_⟩
  rw [step_write_served hs hr hw, ho, targetOf_zero]
  exact writeCmd_busy a.data hb

/-- SELE draws on its slow path, 3 ≤ φ ≤ 65537 (R90). -/
theorem seleStart_slow {phi : Word} (hlo : 3 ≤ phi.toNat) (hhi : phi.toNat ≤ 65537) (dp : Datapath) : seleStart phi dp = ⟨dp, .draw⟩ := by
  rw [seleStart, if_neg (by bv_omega), if_neg (by bv_omega)]

/-- The first engine step of GENP, and of SELE on its slow path, is a draw that leaves the datapath (R81, R92). -/
theorem engineExec_draws {op : Opcode} {a : Word} (h : op = .genp ∨ (op = .sele ∧ 3 ≤ a.toNat ∧ a.toNat ≤ 65537)) (b : Word) (dp : Datapath) :
    engineExec op a b dp = ⟨dp, .draw⟩ := by
  rcases h with rfl | ⟨rfl, hlo, hhi⟩
  · rfl
  · exact seleStart_slow hlo hhi dp

/-- Settles O28: the performed outturn is a draw, whose request is all that changes. -/
theorem drawingCommandsRequestAWord : Obligations.DrawingCommandsRequestAWord := by
  intro s rest op rd a b hp hturn hop
  rw [step_engine_compute hp hturn, engineExec_draws hop]
  rfl

/-- Settles O32: the entropy source has no transition there. -/
theorem noWordIsTakenWithoutARequest : Obligations.NoWordIsTakenWithoutARequest :=
  fun _ _ _ he hs => step_unrequested hs he

end Sys2Proof.Machine
end

section
/-! The primality test of R77 is exact on every 16-bit value (R79). -/

namespace Sys2Proof.Machine

/-- Past the wheel's indices tried so far, the least factor of a number with no factor 2 or 3 is at the next index of the wheel or beyond. -/
theorem wheel_next_le_minFac {n i : Nat} (h2 : ¬ 2 ∣ n) (h3 : ¬ 3 ∣ n) (hi : i % 6 = 5) (hle : i ≤ n.minFac) (hdvd : ¬ i ∣ n)
    (hdvd2 : ¬ i + 2 ∣ n) : i + 6 ≤ n.minFac := by
  have hfac : n.minFac ∣ n := n.minFac_dvd
  have hne : n.minFac ≠ i := fun h => hdvd (h ▸ hfac)
  have hne2 : n.minFac ≠ i + 2 := fun h => hdvd2 (h ▸ hfac)
  have hodd : ¬ 2 ∣ n.minFac := fun h => h2 (h.trans hfac)
  have hthree : ¬ 3 ∣ n.minFac := fun h => h3 (h.trans hfac)
  omega

/-- A number whose least factor lies beyond its square root is prime. -/
theorem prime_of_lt_mul_self {n i : Nat} (hn : 0 < n) (hle : i ≤ n.minFac) (hlt : n < i * i) : n.Prime := by
  by_contra hp
  have hsq : n.minFac ^ 2 ≤ n := Nat.minFac_sq_le_self hn hp
  rw [sq] at hsq
  exact absurd hlt (Nat.not_lt.mpr ((Nat.mul_le_mul hle hle).trans hsq))

/-- A turn of the wheel that finds a divisor finds a proper one. -/
theorem not_prime_of_wheel_divisor {n i : Nat} (hi : 5 ≤ i) (hsq : i * i ≤ n) (hdvd : n % i = 0 ∨ n % (i + 2) = 0) : ¬ n.Prime := by
  have hgrow : i + 2 < i * i := by nlinarith
  rcases hdvd with hdvd | hdvd <;> exact Nat.not_prime_of_dvd_of_lt (Nat.dvd_of_mod_eq_zero hdvd) (by omega) (by omega)

/-- The wheel from index `i` decides primality, once no factor lies below `i` and the bound on its turns reaches the square root of every 16-bit
value; by induction on that bound. -/
theorem wheelLoop_iff_prime {n : Half} (hn : 0 < n.toNat) (h2 : ¬ 2 ∣ n.toNat) (h3 : ¬ 3 ∣ n.toNat) (fuel : Nat) :
    ∀ i : Half, i.toNat % 6 = 5 → i.toNat ≤ n.toNat.minFac → 263 ≤ i.toNat + 6 * fuel →
      ((wheelLoop fuel n i).2 = true ↔ n.toNat.Prime) := by
  have hlt : n.toNat < 65536 := n.isLt
  induction fuel with
  | zero =>
    intro i _ hle hfuel
    have hsq : n.toNat < i.toNat * i.toNat := by nlinarith
    simpa [wheelLoop] using prime_of_lt_mul_self hn hle hsq
  | succ fuel ih =>
    intro i hi hle hfuel
    rw [wheelLoop]
    split
    next hsq =>
      split
      next hdvd => simpa using not_prime_of_wheel_divisor (by omega) hsq hdvd
      next hdvd =>
        rw [not_or, ← Nat.dvd_iff_mod_eq_zero, ← Nat.dvd_iff_mod_eq_zero] at hdvd
        have hsmall : i.toNat ≤ 255 := by by_contra hbig; nlinarith
        have hnext : (i + 6).toNat = i.toNat + 6 := by bv_omega
        have hfac := wheel_next_le_minFac h2 h3 hi hle hdvd.1 hdvd.2
        exact ih (i + 6) (by omega) (by omega) (by omega)
    next hsq => simpa using prime_of_lt_mul_self hn hle (by omega)

/-- Where steps 1 to 3 of R77 decide, they decide primality. -/
theorem quickVerdict_some {n : Half} {v : Bool} (h : quickVerdict n = some v) : v = true ↔ n.toNat.Prime := by
  unfold quickVerdict at h
  split at h
  next hle =>
    cases h
    simpa using fun hp : n.toNat.Prime => absurd hp.two_le (by omega)
  next hgt =>
    split at h
    next hle =>
      cases h
      have hn : n.toNat = 2 ∨ n.toNat = 3 := by omega
      rcases hn with hn | hn <;> norm_num [hn]
    next hgt3 =>
      split at h
      next hdvd =>
        cases h
        have hcomp : ¬ n.toNat.Prime := by
          rcases hdvd with hdvd | hdvd <;> exact Nat.not_prime_of_dvd_of_lt (Nat.dvd_of_mod_eq_zero hdvd) (by omega) (by omega)
        simpa using hcomp
      next => cases h

/-- Where steps 1 to 3 of R77 leave the verdict to the wheel, 2 and 3 are no factors. -/
theorem quickVerdict_none {n : Half} (h : quickVerdict n = none) : 3 < n.toNat ∧ ¬ 2 ∣ n.toNat ∧ ¬ 3 ∣ n.toNat := by
  unfold quickVerdict at h
  split at h
  · cases h
  · split at h
    · cases h
    · split at h
      · cases h
      · omega

/-- The primality test is exact (R79). -/
theorem isPrime16_iff (n : Half) : isPrime16 n = true ↔ n.toNat.Prime := by
  cases hq : quickVerdict n with
  | some v => simpa only [isPrime16, hq] using quickVerdict_some hq
  | none =>
    obtain ⟨hn, h2, h3⟩ := quickVerdict_none hq
    have hfac : (5 : Half).toNat ≤ n.toNat.minFac := by
      have hodd : ¬ 2 ∣ n.toNat.minFac := fun h => h2 (h.trans n.toNat.minFac_dvd)
      have hthree : ¬ 3 ∣ n.toNat.minFac := fun h => h3 (h.trans n.toNat.minFac_dvd)
      have htwo : 2 ≤ n.toNat.minFac := (Nat.minFac_prime (by omega)).two_le
      change 5 ≤ n.toNat.minFac
      omega
    simpa only [isPrime16, hq] using wheelLoop_iff_prime (by omega) h2 h3 43 5 rfl hfac (by decide)

end Sys2Proof.Machine
end

section
/-! The Euclidean gcd (R88), the inverse from the extended algorithm (R96–R102), and the totient (R85–R87) have their mathematical values. -/

namespace Sys2Proof.Machine

/-! ## The Euclidean loop -/

/-- Two iterations of R88 more than halve the divisor. -/
theorem two_mul_mod_mod_lt {a b : Nat} (hb : 0 < b) (hr : a % b ≠ 0) : 2 * (b % (a % b)) < b := by
  have hlt : a % b < b := Nat.mod_lt a hb
  have hrem : b % (a % b) < a % b := Nat.mod_lt b (Nat.pos_of_ne_zero hr)
  have hquot : 1 ≤ b / (a % b) := Nat.div_pos hlt.le (Nat.pos_of_ne_zero hr)
  have hdiv : a % b * (b / (a % b)) + b % (a % b) = b := Nat.div_add_mod b (a % b)
  nlinarith

/-- The loop keeps the greatest common divisor of its two registers (R88). -/
theorem gcd_gcdLoop (fuel : Nat) : ∀ a b : Word, Nat.gcd (gcdLoop fuel a b).1.toNat (gcdLoop fuel a b).2.toNat = Nat.gcd a.toNat b.toNat := by
  induction fuel with
  | zero => exact fun _ _ => rfl
  | succ fuel ih =>
    intro a b
    rw [gcdLoop]
    split
    · rfl
    · rw [ih, BitVec.toNat_umod, Nat.gcd_comm b.toNat, ← Nat.gcd_rec, Nat.gcd_comm]

/-- Twice as many iterations as the divisor has bits end the loop: two of them take away a bit (R136). -/
theorem gcdLoop_ends (k : Nat) : ∀ a b : Word, b.toNat < 2 ^ k → (gcdLoop (2 * k) a b).2 = 0 := by
  induction k with
  | zero =>
    intro a b hb
    exact BitVec.eq_of_toNat_eq (Nat.lt_one_iff.mp hb)
  | succ k ih =>
    intro a b hb
    rw [show 2 * (k + 1) = 2 * k + 1 + 1 by ring, gcdLoop]
    split
    next hzero => exact hzero
    next hb0 =>
      rw [gcdLoop]
      split
      next hzero => exact hzero
      next hr =>
        refine ih _ _ ?_
        have hpos : 0 < b.toNat := Nat.pos_of_ne_zero fun h => hb0 (BitVec.eq_of_toNat_eq h)
        have hhalf := two_mul_mod_mod_lt hpos fun h => hr (BitVec.eq_of_toNat_eq (BitVec.toNat_umod.trans h))
        rw [BitVec.toNat_umod, BitVec.toNat_umod]
        omega

/-- 64 iterations are enough for u32 operands, and leave the gcd in `a` and 0 in `b` (R88, log 13). -/
theorem gcdLoop_result (a b : Word) : (gcdLoop 64 a b).1.toNat = Nat.gcd a.toNat b.toNat ∧ (gcdLoop 64 a b).2 = 0 := by
  have hends : (gcdLoop 64 a b).2 = 0 := gcdLoop_ends 32 a b b.isLt
  have hgcd := gcd_gcdLoop 64 a b
  rw [hends] at hgcd
  exact ⟨by simpa using hgcd, hends⟩

/-- `Gcd(a, b)` is the mathematical gcd (R88). -/
theorem toNat_gcd (a b : Word) : (gcd a b).toNat = Nat.gcd a.toNat b.toNat :=
  (gcdLoop_result a b).1

/-! ## The extended Euclidean algorithm -/

/-- The remainders of R96 run through the same values as those of R88. -/
theorem euclidLoop_remainders (fuel : Nat) : ∀ r : EuclidRegs,
    (euclidLoop fuel r).a = (gcdLoop fuel r.a r.b).1 ∧ (euclidLoop fuel r).b = (gcdLoop fuel r.a r.b).2 := by
  induction fuel with
  | zero => exact fun _ => ⟨rfl, rfl⟩
  | succ fuel ih =>
    intro r
    rw [euclidLoop, gcdLoop]
    split
    · exact ⟨rfl, rfl⟩
    · have hmod : r.iterate.b = r.a % r.b := BitVec.eq_of_toNat_eq ((toNat_sub_div_mul r.a r.b).trans BitVec.toNat_umod.symm)
      exact hmod ▸ ih r.iterate

/-- The extended algorithm ends with the gcd in `a` and 0 in `b` (R96). -/
theorem extEuclid_result (e phi : Word) (r : EuclidRegs) :
    (extEuclid e phi r).a.toNat = Nat.gcd e.toNat phi.toNat ∧ (extEuclid e phi r).b = 0 := by
  obtain ⟨ha, hb⟩ := euclidLoop_remainders 64 (r.load e phi)
  rw [extEuclid, ha, hb]
  exact gcdLoop_result e phi

/-- Each of the two remainders is the combination of e and φ that its coefficients say (R96). -/
structure Bezout (e phi : Nat) (x : ExactRegs) : Prop where
  current : (e : Int) * x.x0 + phi * x.y0 = x.a
  next : (e : Int) * x.x1 + phi * x.y1 = x.b

/-- One iteration of R96 keeps both combinations. -/
theorem Bezout.iterate {e phi : Nat} {x : ExactRegs} (h : Bezout e phi x) : Bezout e phi x.iterate where
  current := h.next
  next := by
    have hdiv : (x.a : Int) = x.b * (x.a / x.b : Nat) + (x.a % x.b : Nat) := by exact_mod_cast (Nat.div_add_mod x.a x.b).symm
    calc (e : Int) * (x.x0 - (x.a / x.b : Nat) * x.x1) + phi * (x.y0 - (x.a / x.b : Nat) * x.y1)
        = (e * x.x0 + phi * x.y0) - (x.a / x.b : Nat) * (e * x.x1 + phi * x.y1) := by ring
      _ = x.a - (x.a / x.b : Nat) * x.b := by rw [h.current, h.next]
      _ = (x.a % x.b : Nat) := by rw [hdiv]; ring

theorem Bezout.loop {e phi : Nat} (n : Nat) : ∀ {x : ExactRegs}, Bezout e phi x → Bezout e phi (exactLoop n x) := by
  induction n with
  | zero => exact fun h => h
  | succ n ih =>
    intro x h
    rw [exactLoop]
    split
    · exact h
    · exact ih h.iterate

theorem bezout_exactStart (e phi : Word) : Bezout e.toNat phi.toNat (exactStart e phi) := by
  constructor <;> simp [exactStart]

/-- Bézout's identity on the machine's registers (R96). -/
theorem extEuclid_bezout (e phi : Word) (r : EuclidRegs) :
    (e.toNat : Int) * (extEuclid e phi r).x0.toInt + phi.toNat * (extEuclid e phi r).y0.toInt = (extEuclid e phi r).a.toNat := by
  have htracks := (tracksExact_load e phi r).loop 64
  have hbezout := ((bezout_exactStart e phi).loop 64).current
  rwa [← htracks.x0, ← htracks.y0, ← htracks.a] at hbezout

/-! ## The normalization -/

/-- A nonnegative coefficient that fits in 32 bits keeps its value in a u32. -/
theorem toNat_setWidth_of_toInt {x : Coef} (hlo : 0 ≤ x.toInt) (hhi : x.toInt < 2 ^ 32) : ((x.setWidth 32).toNat : Int) = x.toInt := by
  have hx := x.isLt
  rw [BitVec.toInt_eq_toNat_cond] at hlo hhi ⊢
  rw [BitVec.toNat_setWidth]
  omega

/-- The normalization of R98 is the floor modulus: the C-like remainder lies above −φ, so adding φ makes it nonnegative and below 2φ. -/
theorem toNat_normalize (x : Coef) {phi : Word} (hphi : 1 ≤ phi.toNat) : ((normalize x phi).toNat : Int) = x.toInt % phi.toNat := by
  have hpos : (0 : Int) < phi.toNat := by omega
  have hword : phi.toNat < 2 ^ 32 := phi.isLt
  have hwide : (phi.setWidth 64).toInt = phi.toNat := toInt_setWidth_word phi
  have hlo : -(phi.toNat : Int) < x.toInt.tmod phi.toNat := Int.lt_tmod_of_pos _ hpos
  have hhi : x.toInt.tmod phi.toNat < phi.toNat := Int.tmod_lt_of_pos _ hpos
  have hsum : (x.srem (phi.setWidth 64) + phi.setWidth 64).toInt = x.toInt.tmod phi.toNat + phi.toNat := by
    rw [BitVec.toInt_add, BitVec.toInt_srem, hwide, Int.bmod_eq_of_le (by omega) (by omega)]
  have hmod : (x.toInt.tmod phi.toNat + phi.toNat) % phi.toNat = x.toInt % phi.toNat := by
    rw [Int.add_emod_right, ← Int.tmod_add_mul_tdiv x.toInt phi.toNat, Int.add_mul_emod_self_left, Int.tmod_add_mul_tdiv]
  have hresult : ((x.srem (phi.setWidth 64) + phi.setWidth 64).srem (phi.setWidth 64)).toInt = x.toInt % phi.toNat := by
    rw [BitVec.toInt_srem, hsum, hwide, Int.tmod_eq_emod_of_nonneg (by omega), hmod]
  have hnonneg := Int.emod_nonneg x.toInt hpos.ne'
  have hlt := Int.emod_lt_of_pos x.toInt hpos
  rw [normalize, toNat_setWidth_of_toInt (by omega) (by omega), hresult]

/-! ## The inverse -/

theorem toNat_normalize_lt (x : Coef) {phi : Word} (hphi : 1 ≤ phi.toNat) : (normalize x phi).toNat < phi.toNat := by
  have hlt : x.toInt % phi.toNat < phi.toNat := Int.emod_lt_of_pos _ (by omega)
  rw [← toNat_normalize x hphi] at hlt
  exact_mod_cast hlt

/-- Where the gcd is 1, the normalized coefficient of e is its inverse modulo φ (R98, R102). -/
theorem normalize_mul_modEq_one {e phi : Word} (hphi : 1 ≤ phi.toNat) (hgcd : Nat.gcd e.toNat phi.toNat = 1) (r : EuclidRegs) :
    (normalize (extEuclid e phi r).x0 phi).toNat * e.toNat ≡ 1 [MOD phi.toNat] := by
  have hbezout := extEuclid_bezout e phi r
  rw [(extEuclid_result e phi r).1, hgcd, Nat.cast_one] at hbezout
  rw [← Int.natCast_modEq_iff, Nat.cast_mul, toNat_normalize _ hphi]
  calc (extEuclid e phi r).x0.toInt % phi.toNat * e.toNat
      ≡ (extEuclid e phi r).x0.toInt * e.toNat [ZMOD phi.toNat] := (Int.mod_modEq _ _).mul_right _
    _ = 1 + phi.toNat * -(extEuclid e phi r).y0.toInt := by linarith
    _ ≡ 1 [ZMOD phi.toNat] := by simp [Int.ModEq]

/-! ## The totient -/

theorem toNat_lowHalf {w : Word} (h : w.toNat ≤ 65535) : (lowHalf w).toNat = w.toNat := by
  rw [lowHalf, BitVec.toNat_setWidth, Nat.mod_eq_of_lt (by omega)]

theorem toNat_widen (h : Half) : (widen h).toNat = h.toNat :=
  BitVec.toNat_setWidth_of_le (by decide)

/-- The totient multiplier is exact: no result wraps (R85, R87). -/
theorem toNat_totient {p q : Half} (hp : 1 ≤ p.toNat) (hq : 1 ≤ q.toNat) : (totient p q).toNat = (p.toNat - 1) * (q.toNat - 1) := by
  have pred {h : Half} (hh : 1 ≤ h.toNat) : (widen h - 1).toNat = h.toNat - 1 := by
    rw [BitVec.toNat_sub_of_le (by rw [BitVec.le_def, toNat_widen]; exact hh), toNat_widen]
    rfl
  have hmul : (p.toNat - 1) * (q.toNat - 1) ≤ 65535 * 65535 := Nat.mul_le_mul (by omega) (by omega)
  rw [totient, BitVec.toNat_mul, pred hp, pred hq, Nat.mod_eq_of_lt (by omega)]

/-- TOT's domain check (R86). -/
theorem inTotDomain_iff (w : Word) : inTotDomain w = true ↔ 1 ≤ w.toNat ∧ w.toNat ≤ 65535 := by
  simp only [inTotDomain, Bool.and_eq_true, bne_iff_ne, decide_eq_true_eq]
  bv_omega

end Sys2Proof.Machine
end

section
/-! How each command ends its engine step or its judgement of a word, as its family rule says, and what the lifecycle makes of it (R66–R74). -/

namespace Sys2Proof.Machine

/-! ## The engine step of the commands that draw nothing -/

theorem totStart_ok {p q : Word} (hp : 1 ≤ p.toNat ∧ p.toNat ≤ 65535) (hq : 1 ≤ q.toNat ∧ q.toNat ≤ 65535) (dp : Datapath) :
    (totStart p q dp).action = .complete (.ok (totient (lowHalf p) (lowHalf q))) := by
  have hdom : (inTotDomain p && inTotDomain q) = true := by rw [Bool.and_eq_true, inTotDomain_iff, inTotDomain_iff]; exact ⟨hp, hq⟩
  exact if_pos hdom

theorem totStart_domain {p q : Word} (h : p = 0 ∨ 65535 < p.toNat ∨ q = 0 ∨ 65535 < q.toNat) (dp : Datapath) :
    (totStart p q dp).action = .complete .domain := by
  have hdom : ¬ (inTotDomain p && inTotDomain q) = true := by
    rw [Bool.and_eq_true, inTotDomain_iff, inTotDomain_iff]
    bv_omega
  exact if_neg hdom

/-- TOT's product of the low halves is that of the operands (R85, R86). -/
theorem toNat_totient_lowHalf {p q : Word} (hp : 1 ≤ p.toNat ∧ p.toNat ≤ 65535) (hq : 1 ≤ q.toNat ∧ q.toNat ≤ 65535) :
    (totient (lowHalf p) (lowHalf q)).toNat = (p.toNat - 1) * (q.toNat - 1) := by
  have hlp := toNat_lowHalf hp.2
  have hlq := toNat_lowHalf hq.2
  rw [toNat_totient (hlp ▸ hp.1) (hlq ▸ hq.1), hlp, hlq]

theorem seleStart_fast {phi : Word} (h : 65537 < phi.toNat) (dp : Datapath) : (seleStart phi dp).action = .complete (.ok 65537) :=
  if_pos (by bv_omega)

theorem seleStart_domain {phi : Word} (h : phi.toNat ≤ 2) (dp : Datapath) : (seleStart phi dp).action = .complete .domain := by
  simp only [seleStart]
  rw [if_neg (by bv_omega), if_pos (by bv_omega)]

/-- The extended algorithm's gcd, in the form INV tests it (R97). -/
theorem extEuclid_a_eq_one_iff (e phi : Word) (r : EuclidRegs) : (extEuclid e phi r).a = 1 ↔ Nat.gcd e.toNat phi.toNat = 1 := by
  rw [← (extEuclid_result e phi r).1, ← BitVec.toNat_inj]
  rfl

theorem invStart_ok {e phi : Word} (hphi : 1 ≤ phi.toNat) (hgcd : Nat.gcd e.toNat phi.toNat = 1) (dp : Datapath) :
    (invStart e phi dp).action = .complete (.ok (normalize (extEuclid e phi dp.euclid).x0 phi)) := by
  rw [invStart, if_neg (by bv_omega)]
  exact if_pos ((extEuclid_a_eq_one_iff ..).mpr hgcd)

theorem invStart_noInverse {e phi : Word} (h : phi = 0 ∨ Nat.gcd e.toNat phi.toNat ≠ 1) (dp : Datapath) :
    (invStart e phi dp).action = .complete .noInverse := by
  rw [invStart]
  split
  next => rfl
  next hphi => exact if_neg ((extEuclid_a_eq_one_iff ..).not.mpr (h.resolve_left hphi))

/-- ISPRIME in its domain answers the verdict of the exact test (R79, R82). -/
theorem isprimeStart_ok {n : Word} (h : n.toNat ≤ 65535) (dp : Datapath) :
    (isprimeStart n dp).action = .complete (.ok (if n.toNat.Prime then 1 else 0)) := by
  have hverdict : isPrime16 (lowHalf n) = true ↔ n.toNat.Prime := by rw [isPrime16_iff, toNat_lowHalf h]
  rw [isprimeStart, if_neg (by bv_omega)]
  simp only [hverdict]

theorem isprimeStart_domain {n : Word} (h : 65535 < n.toNat) (dp : Datapath) : (isprimeStart n dp).action = .complete .domain := by
  rw [isprimeStart, if_pos (by bv_omega)]

theorem totStart_completes (a b : Word) (dp : Datapath) : ∃ c, (totStart a b dp).action = .complete c ∧ CompletesAs .tot a b c := by
  by_cases h : (1 ≤ a.toNat ∧ a.toNat ≤ 65535) ∧ 1 ≤ b.toNat ∧ b.toNat ≤ 65535
  · obtain ⟨ha, hb⟩ := h
    exact ⟨_, totStart_ok ha hb dp, fun _ => ⟨_, rfl, toNat_totient_lowHalf ha hb⟩, fun h => by bv_omega⟩
  · exact ⟨_, totStart_domain (by bv_omega) dp, fun h => by omega, fun _ => rfl⟩

theorem seleStart_completes {a : Word} (h : 65537 < a.toNat ∨ a.toNat ≤ 2) (b : Word) (dp : Datapath) :
    ∃ c, (seleStart a dp).action = .complete c ∧ CompletesAs .sele a b c := by
  rcases h with h | h
  · exact ⟨_, seleStart_fast h dp, fun _ => rfl, fun h' => by omega, .inr h⟩
  · exact ⟨_, seleStart_domain h dp, fun h' => by omega, fun _ => rfl, .inl h⟩

theorem invStart_completes (a b : Word) (dp : Datapath) : ∃ c, (invStart a b dp).action = .complete c ∧ CompletesAs .inv a b c := by
  by_cases h : 1 ≤ b.toNat ∧ Nat.gcd a.toNat b.toNat = 1
  · obtain ⟨hb, hgcd⟩ := h
    refine ⟨_, invStart_ok hb hgcd dp, fun _ => ⟨_, rfl, toNat_normalize_lt _ hb, normalize_mul_modEq_one hb hgcd _⟩, ?_⟩
    rintro (rfl | hne)
    · exact absurd hb (by decide)
    · exact absurd hgcd hne
  · refine ⟨_, invStart_noInverse ?_ dp, fun h' => absurd h' h, fun _ => rfl⟩
    exact (not_and_or.mp h).imp_left fun hb => by bv_omega

theorem gcdStart_completes (a b : Word) (dp : Datapath) : ∃ c, (gcdStart a b dp).action = .complete c ∧ CompletesAs .gcd a b c :=
  ⟨_, rfl, _, rfl, toNat_gcd a b⟩

theorem isprimeStart_completes (a b : Word) (dp : Datapath) : ∃ c, (isprimeStart a dp).action = .complete c ∧ CompletesAs .isprime a b c := by
  rcases le_or_gt a.toNat 65535 with h | h
  · exact ⟨_, isprimeStart_ok h dp, fun ⟨_, hp⟩ => by rw [if_pos hp], fun ⟨_, hp⟩ => by rw [if_neg hp], fun h' => by omega⟩
  · exact ⟨_, isprimeStart_domain h dp, fun h' => by omega, fun h' => by omega, fun _ => rfl⟩

/-- TOT, INV, GCD, ISPRIME, and SELE outside its slow path end their engine step with the completion of their rules (R70). -/
theorem engineExec_completes {op : Opcode} {a : Word} (b : Word) (dp : Datapath)
    (h : op = .tot ∨ op = .inv ∨ op = .gcd ∨ op = .isprime ∨ (op = .sele ∧ (65537 < a.toNat ∨ a.toNat ≤ 2))) :
    ∃ c, (engineExec op a b dp).action = .complete c ∧ CompletesAs op a b c := by
  rcases h with rfl | rfl | rfl | rfl | ⟨rfl, hphi⟩
  · exact totStart_completes a b dp
  · exact invStart_completes a b dp
  · exact gcdStart_completes a b dp
  · exact isprimeStart_completes a b dp
  · exact seleStart_completes hphi b dp

/-- Settles O27: the engine's turn performs the command's outturn, which completes. -/
theorem oneEngineStepWithoutDraws : Obligations.OneEngineStepWithoutDraws := by
  intro s rest op rd a b hi hp hturn hop
  obtain ⟨c, hact, hc⟩ := engineExec_completes b s.datapath hop
  have hpend : s.entPending = false := by rw [hi.pending_iff, hp]; rfl
  refine ⟨_, c, step_engine_compute hp hturn, hc, ?_, by simp, by simp⟩
  rw [perform_complete hact]
  exact complete_endsWith rfl rfl rfl hpend rfl

/-! ## The judgement of a word -/

theorem genpOnWord_accepts {w : Half} (h : w.toNat.Prime) (dp : Datapath) : (genpOnWord w dp).action = .complete (.ok (widen w)) :=
  if_pos ((isPrime16_iff w).mpr h)

theorem genpOnWord_rejects {w : Half} (h : ¬ w.toNat.Prime) (dp : Datapath) : (genpOnWord w dp).action = .draw :=
  if_neg ((isPrime16_iff w).not.mpr h)

/-- SELE's bound and gcd test of a word, in the order in which it makes them (R90). -/
theorem acceptedBySele_iff_tests (phi : Word) (w : Half) :
    acceptedBySele phi w ↔ (isPrime16 w && widen w < phi) = true ∧ gcd (widen w) phi = 1 := by
  rw [Bool.and_eq_true, isPrime16_iff, decide_eq_true_eq, BitVec.lt_def, ← BitVec.toNat_inj, toNat_gcd, toNat_widen, and_assoc]
  rfl

theorem seleOnWord_accepts {phi : Word} {w : Half} (h : acceptedBySele phi w) (dp : Datapath) :
    (seleOnWord phi w dp).action = .complete (.ok (widen w)) := by
  obtain ⟨hprime, hgcd⟩ := (acceptedBySele_iff_tests phi w).mp h
  rw [seleOnWord, if_pos hprime]
  exact if_pos hgcd

theorem seleOnWord_rejects {phi : Word} {w : Half} (h : ¬ acceptedBySele phi w) (dp : Datapath) : (seleOnWord phi w dp).action = .draw := by
  rw [acceptedBySele_iff_tests, not_and] at h
  rw [seleOnWord]
  split
  next hprime => exact if_neg (h hprime)
  next => rfl

/-- A delivery to a waiting command that accepts the words with `P`: it counts the word, and ends the command or leaves it waiting (R66, R69). -/
theorem step_judges_word {s : State} {w : Half} {rest : List Event} {op : Opcode} {rd : RegIdx} {a b : Word} {o : Outturn} {P : Prop} (hi : s.Inv)
    (hp : s.phase = .busy op rd a b .awaitDraw) (hs : s.inputs = .deliver w :: rest) (ho : onWord op a w s.datapath = some o)
    (haccept : P → o.action = .complete (.ok (widen w))) (hreject : ¬ P → o.action = .draw) :
    ∃ t : State, step s = .next t ∧ t.inputs = rest ∧ t.resp = s.resp ∧
      (P → EndsWith s t rd (.ok (w.setWidth 32)) (bumpDrawCnt s.drawCnt)) ∧ (¬ P → SameTuple { s with drawCnt := bumpDrawCnt s.drawCnt } t) := by
  have hpend : s.entPending = true := by rw [hi.pending_iff, hp]; rfl
  refine ⟨_, step_deliver_requested hp hpend hs ho, by simp, by simp, fun h => ?_, fun h => ?_⟩
  · rw [perform_complete (haccept h)]
    exact complete_endsWith rfl rfl rfl rfl rfl
  · rw [perform_draw (hreject h)]
    exact ⟨rfl, rfl, rfl, rfl, rfl, rfl, hp.symm, hpend.symm⟩

/-- Settles O29, by the exact primality test. -/
theorem genpJudgesEachWord : Obligations.GenpJudgesEachWord :=
  fun s _ _ _ _ _ hi hp hs => step_judges_word hi hp hs rfl (genpOnWord_accepts · s.datapath) (genpOnWord_rejects · s.datapath)

/-- Settles O30, by the three tests of R90. -/
theorem seleJudgesEachWord : Obligations.SeleJudgesEachWord :=
  fun s _ _ _ _ _ hi hp hs => step_judges_word hi hp hs rfl (seleOnWord_accepts · s.datapath) (seleOnWord_rejects · s.datapath)

/-! ## A drawing command over a stretch of rejected words -/

theorem Passed.trans {s t u : State} {turns turns' rest rest' : List Event} (h : Passed s t turns rest) (h' : Passed t u turns' rest') :
    Passed s u (turns ++ turns') rest' where
  schedule := h'.schedule
  resp hn := by
    simp only [List.mem_append, not_or] at hn
    exact (h'.resp fun r => (hn r).2).trans (h.resp fun r => (hn r).1)

/-- A command whose first engine step draws, issued to a block that is ready for it, waits over a stretch of words that it rejects (R74). -/
theorem exec_waits_over_rejected {s : State} {i : Instr} {polls pre rest : List Event} {P : Half → Prop} (h : ReadyFor s polls (pre ++ rest))
    (hdraw : engineExec i.opcode (operandA s i) (operandB s i) s.datapath = ⟨s.datapath, .draw⟩)
    (hreject : ∀ c dp, P c → ∃ o, onWord i.opcode (readReg s i.rs1) c dp = some o ∧ o.action = .draw) (hpre : OffersOnly P pre) :
    ∃ t u : State, exec i s = .next t ∧ runSteps (polls.length + 1 + pre.length) t = .next u ∧ Passed s u (polls ++ pre) rest ∧
      WaitsIn s u i (countOf (wordCount pre)) := by
  obtain ⟨t, v, hexec, hrun, hpassed, hwaits⟩ := exec_waits h hdraw
  obtain ⟨u, hrun', hwaits', hpassed'⟩ := runSteps_rejects hreject h.released rest pre hwaits hpre hpassed.schedule
  exact ⟨t, u, hexec, (hrun _).trans hrun', hpassed.trans hpassed', by simpa using hwaits'⟩

/-- Settles O16: GENP rejects every word that is not prime. -/
theorem genpWaitsWhileNoPrimeComes : Obligations.GenpWaitsWhileNoPrimeComes :=
  fun s rd _ _ _ hready hpre => exec_waits_over_rejected (i := .genp rd) hready (engineExec_draws (.inl rfl) _ s.datapath)
    (fun _ dp hc => ⟨_, rfl, genpOnWord_rejects hc dp⟩) hpre

/-- Settles O20: SELE with 3 ≤ φ ≤ 65537 draws, and rejects every word that is not acceptable. -/
theorem seleSlowPathWaitsWhileNothingAcceptableComes : Obligations.SeleSlowPathWaitsWhileNothingAcceptableComes :=
  fun s rd rs1 _ _ _ hready hlo hhi hpre => exec_waits_over_rejected (i := .sele rd rs1) hready
    (engineExec_draws (.inr ⟨rfl, hlo, hhi⟩) _ s.datapath) (fun _ dp hc => ⟨_, rfl, seleOnWord_rejects hc dp⟩) hpre

end Sys2Proof.Machine
end

section
/-! The commands of the primality test to their ends: GENP's first prime with its bounds (R80–R83), ISPRIME's verdict and its domain (R79, R82). -/

namespace Sys2Proof.Machine

/-! ## The largest 16-bit prime -/

/-- No 16-bit prime exceeds 65521: each of the fourteen larger values has a proper factor. -/
theorem prime_le_65521 {n : Nat} (hp : n.Prime) (hlt : n < 65536) : n ≤ 65521 := by
  by_contra hbig
  have hlow : 65522 ≤ n := by omega
  interval_cases n <;> norm_num at hp

/-- Settles O33: the test is exact, 65521 is prime, and no larger 16-bit value is. -/
theorem primalityTestIsExact : Obligations.PrimalityTestIsExact := by
  refine ⟨isPrime16_iff, (isPrime16_iff 65521).mpr ?_, fun n h => ?_⟩
  · change Nat.Prime 65521
    norm_num
  · have hp : n.toNat.Prime := (isPrime16_iff n).mp h
    exact ⟨hp.two_le, prime_le_65521 hp n.isLt⟩

/-! ## ISPRIME -/

/-- Settles O24: the first engine step completes with the verdict. -/
theorem isprimeWritesTheVerdict : Obligations.IsprimeWritesTheVerdict := by
  intro s rd rs1 polls rest hready hdom
  obtain ⟨t, u, hexec, hrun, hpassed, hends⟩ := exec_ends (i := .isprime rd rs1) hready (isprimeStart_ok hdom s.datapath)
  exact ⟨t, u, _, hexec, hrun, hpassed, hends, fun hp => if_pos hp, fun hp => if_neg hp⟩

/-- Settles O25: the first engine step completes with DOMAIN. -/
theorem isprimeOutsideItsDomain : Obligations.IsprimeOutsideItsDomain :=
  fun s rd rs1 _ _ hready hdom => exec_ends (i := .isprime rd rs1) hready (isprimeStart_domain hdom s.datapath)

/-! ## A drawing command to the word it accepts -/

/-- A waiting command that accepts the word delivered next ends with its value, and the word is counted (R66, R67). -/
theorem WaitsIn.step_accepts {s t : State} {i : Instr} {w : Half} {rest : List Event} {v : Word} {o : Outturn} {n : Nat}
    (hwaits : WaitsIn s t i (countOf n)) (hs : t.inputs = .deliver w :: rest) (ho : onWord i.opcode (readReg s i.rs1) w t.datapath = some o)
    (haccept : o.action = .complete (.ok v)) :
    ∃ u, step t = .next u ∧ u.inputs = rest ∧ u.resp = t.resp ∧ EndsWith s u i.rd (.ok v) (countOf (n + 1)) := by
  refine ⟨_, step_deliver_requested hwaits.phase hwaits.pending hs ho, by simp, by simp, ?_⟩
  rw [perform_complete haccept]
  exact complete_endsWith hwaits.regs hwaits.ovr hwaits.held rfl (by simp [hwaits.draws, bumpDrawCnt_countOf])

/-- A command whose first engine step draws, issued to a block that is ready for it, ends with the first word that it does not reject, and every
word is counted (R66, R69). -/
theorem exec_ends_at_accepted {s : State} {i : Instr} {polls pre rest : List Event} {P : Half → Prop} {w : Half} {v : Word}
    (h : ReadyFor s polls (pre ++ .deliver w :: rest))
    (hdraw : engineExec i.opcode (operandA s i) (operandB s i) s.datapath = ⟨s.datapath, .draw⟩)
    (hreject : ∀ c dp, P c → ∃ o, onWord i.opcode (readReg s i.rs1) c dp = some o ∧ o.action = .draw) (hpre : OffersOnly P pre)
    (haccept : ∀ dp, ∃ o, onWord i.opcode (readReg s i.rs1) w dp = some o ∧ o.action = .complete (.ok v)) :
    ∃ t u : State, exec i s = .next t ∧ runSteps (polls.length + 1 + pre.length + 1) t = .next u ∧ Passed s u (polls ++ pre) rest ∧
      EndsWith s u i.rd (.ok v) (countOf (wordCount pre + 1)) := by
  obtain ⟨t, m, hexec, hrun, hpassed, hwaits⟩ := exec_waits_over_rejected h hdraw hreject hpre
  obtain ⟨o, ho, hact⟩ := haccept m.datapath
  obtain ⟨u, hstep, hinputs, hresp, hends⟩ := hwaits.step_accepts hpassed.schedule ho hact
  exact ⟨t, u, hexec, (runSteps_add hrun).trans (runSteps_one hstep 0), ⟨hinputs, fun hn => hresp.trans (hpassed.resp hn)⟩, hends⟩

/-- Settles O15: GENP rejects every word that is not prime and accepts the first that is. -/
theorem genpWritesTheFirstPrimeDrawn : Obligations.GenpWritesTheFirstPrimeDrawn :=
  fun s rd _ _ _ _ hready hpre hprime => exec_ends_at_accepted (i := .genp rd) hready (engineExec_draws (.inl rfl) _ s.datapath)
    (fun _ dp hc => ⟨_, rfl, genpOnWord_rejects hc dp⟩) hpre (fun dp => ⟨_, rfl, genpOnWord_accepts hprime dp⟩)

/-! ## What completes a waiting command -/

/-- A host's write to a busy block leaves DONE: no command is accepted (R64). -/
theorem WriteMove.done_of_busy {s t : State} {a : WriteAccess} {rest : List Event} (hm : WriteMove s t a rest) (hb : s.busy = true) :
    t.done = s.done := by
  cases hm with
  | ignored v h => rw [h]
  | accepted hw ht hidle i hd h => exact absurd (hb.symm.trans hidle) (by decide)
  | illegal hw ht hidle why hd h => exact absurd (hb.symm.trans hidle) (by decide)
  | discarded hw ht hb' h => rw [h]; rfl
  | status hw ht h => rw [h]; rfl
  | operand hw k ht hidle h => exact absurd (hb.symm.trans hidle) (by decide)

/-- Only the delivery of a word completes a waiting command (R68, R74). -/
theorem delivered_of_step_done {s t : State} {op : Opcode} {rd : RegIdx} {a b : Word} (hi : s.Inv) (hp : s.phase = .busy op rd a b .awaitDraw)
    (h : step s = .next t) (hdone : t.done = true) : ∃ w rest, s.inputs = .deliver w :: rest := by
  obtain ⟨hb, hd, -⟩ := hi.of_phase_busy hp
  have hrises : t.done ≠ s.done := by rw [hdone, hd]; decide
  cases step_move h with
  | command rest hs hm =>
    rcases hs with he | ⟨w, hw⟩
    · rw [step_engineTurn he, engineStep_of_not_compute (by simp [hp])] at h
      cases h
      exact absurd rfl hrises
    · exact ⟨w, rest, hw⟩
  | read r rest v hs hr h => subst h; exact absurd rfl hrises
  | write a rest hs hr hm => exact absurd (hm.done_of_busy hb) hrises
  | reset rest hs h => subst h; cases hdone
  | hold rest hs h => subst h; cases hdone
  | release rest hs h => subst h; exact absurd rfl hrises

/-- Settles O52: the completing word is a 16-bit prime, for a rejected one leaves DONE clear. -/
theorem genpResultIsASixteenBitPrime : Obligations.GenpResultIsASixteenBitPrime := by
  intro s t rd a b hi hp h hdone
  obtain ⟨w, rest, hs⟩ := delivered_of_step_done hi hp h hdone
  obtain ⟨u, hstep, -, -, haccept, hreject⟩ := genpJudgesEachWord s w rest rd a b hi hp hs
  have ht : t = u := Host.Outcome.next.inj (h.symm.trans hstep)
  subst ht
  have hprime : w.toNat.Prime := by
    by_contra hn
    obtain ⟨-, -, hsame, -⟩ := hreject hn
    obtain ⟨-, hclear, -⟩ := hi.of_phase_busy hp
    exact absurd (hdone.symm.trans (hsame.trans hclear)) (by decide)
  have hresult : (readReg t rd).toNat = w.toNat := by rw [(haccept hprime).result _ rfl]; exact toNat_widen w
  rw [hresult]
  exact ⟨hprime, hprime.two_le, prime_le_65521 hprime w.isLt⟩

end Sys2Proof.Machine
end

section
/-! TOT from the host's submission to its end: the exact totient inside its domain, DOMAIN outside (R85–R87). -/

namespace Sys2Proof.Machine

/-- Settles O13: the first engine step completes with the totient, which is exact for operands in the domain. -/
theorem totWritesTheTotient : Obligations.TotWritesTheTotient := by
  intro s rd rs1 rs2 polls rest hready hp hp' hq hq'
  have hcompletes := totStart_ok ⟨hp, hp'⟩ ⟨hq, hq'⟩ s.datapath
  obtain ⟨t, u, hexec, hrun, hpassed, hends⟩ := exec_ends (i := .tot rd rs1 rs2) hready hcompletes
  exact ⟨t, u, _, hexec, hrun, hpassed, hends, toNat_totient_lowHalf ⟨hp, hp'⟩ ⟨hq, hq'⟩⟩

/-- Settles O14: the first engine step completes with DOMAIN. -/
theorem totOutsideItsDomain : Obligations.TotOutsideItsDomain :=
  fun s rd rs1 rs2 _ _ hready hdom => exec_ends (i := .tot rd rs1 rs2) hready (totStart_domain hdom s.datapath)

end Sys2Proof.Machine
end

section
/-! SELE and GCD from the host's submission to their ends (R89–R92, R95), and the exponents SELE completes with: for every φ of its slow path one
exists (R93), and on a totient each has an inverse (R94, R102). -/

namespace Sys2Proof.Machine

/-! ## The commands to their ends -/

/-- Settles O17: the first engine step completes with 65537. -/
theorem seleFastPathWritesTheFixedExponent : Obligations.SeleFastPathWritesTheFixedExponent :=
  fun s rd rs1 _ _ hready hphi => exec_ends (i := .sele rd rs1) hready (seleStart_fast hphi s.datapath)

/-- Settles O18: the first engine step completes with DOMAIN. -/
theorem seleOutsideItsDomain : Obligations.SeleOutsideItsDomain :=
  fun s rd rs1 _ _ hready hphi => exec_ends (i := .sele rd rs1) hready (seleStart_domain hphi s.datapath)

/-- Settles O19: SELE with 3 ≤ φ ≤ 65537 draws, rejects every word that is not acceptable, and accepts the first that is. -/
theorem seleSlowPathWritesTheFirstAcceptablePrime : Obligations.SeleSlowPathWritesTheFirstAcceptablePrime :=
  fun s rd rs1 _ _ _ _ hready hlo hhi hpre haccept => exec_ends_at_accepted (i := .sele rd rs1) hready
    (engineExec_draws (.inr ⟨rfl, hlo, hhi⟩) _ s.datapath) (fun _ dp hc => ⟨_, rfl, seleOnWord_rejects hc dp⟩) hpre
    (fun dp => ⟨_, rfl, seleOnWord_accepts haccept dp⟩)

/-- Settles O23: the first engine step completes with the result of the Euclidean loop, which is the gcd. -/
theorem gcdWritesTheGcd : Obligations.GcdWritesTheGcd := by
  intro s rd rs1 rs2 polls rest hready
  obtain ⟨t, u, hexec, hrun, hpassed, hends⟩ := exec_ends (i := .gcd rd rs1 rs2) hready rfl
  exact ⟨t, u, _, hexec, hrun, hpassed, hends, toNat_gcd ..⟩

/-! ## An acceptable word exists -/

/-- A prime factor of φ − 1 is acceptable: it lies below φ and divides the predecessor of φ. It has 16 bits even for φ = 65537, since 65536 is
no prime (R93). -/
theorem exists_acceptedBySele {phi : Word} (hlo : 3 ≤ phi.toNat) (hhi : phi.toNat ≤ 65537) : ∃ w : Half, acceptedBySele phi w := by
  obtain ⟨c, hprime, hdvd⟩ := Nat.exists_prime_and_dvd (n := phi.toNat - 1) (by omega)
  have hle : c ≤ phi.toNat - 1 := Nat.le_of_dvd (by omega) hdvd
  have hcoprime : Nat.Coprime c phi.toNat :=
    Nat.Coprime.coprime_dvd_left hdvd ((Nat.coprime_self_sub_left (by omega)).mpr (Nat.coprime_one_left _))
  have hne : c ≠ 65536 := fun h => absurd (h ▸ hprime) (by norm_num)
  have hword : (BitVec.ofNat 16 c).toNat = c := Nat.mod_eq_of_lt (by omega)
  exact ⟨BitVec.ofNat 16 c, hword.symm ▸ hprime, by omega, hword.symm ▸ hcoprime⟩

/-- Settles O38: SELE completes with every acceptable word, and one exists. -/
theorem anAcceptableExponentExists : Obligations.AnAcceptableExponentExists := by
  intro phi dp hlo hhi
  obtain ⟨w, hw⟩ := exists_acceptedBySele hlo hhi
  have ⟨hprime, hlt, hgcd⟩ := hw
  exact ⟨w, seleOnWord_accepts hw dp, hprime.one_lt, hlt, hgcd⟩

/-! ## The exponents SELE completes with are invertible -/

/-- Before its first draw SELE completes OK on the fast path only (R89, R92). -/
theorem fast_of_seleStart_ok {phi e : Word} {dp : Datapath} (h : (seleStart phi dp).action = .complete (.ok e)) :
    65537 < phi.toNat ∧ e = 65537 := by
  rcases lt_or_ge 65537 phi.toNat with hfast | hhi
  · rw [seleStart_fast hfast] at h
    cases h
    exact ⟨hfast, rfl⟩
  · rcases le_or_gt phi.toNat 2 with hdom | hlo
    · rw [seleStart_domain hdom] at h
      cases h
    · rw [seleStart_slow hlo hhi] at h
      cases h

/-- SELE completes OK with a word only if the word is acceptable, and with its value (R90). -/
theorem accepted_of_seleOnWord_ok {phi e : Word} {w : Half} {dp : Datapath} (h : (seleOnWord phi w dp).action = .complete (.ok e)) :
    acceptedBySele phi w ∧ e = widen w := by
  by_cases hw : acceptedBySele phi w
  · rw [seleOnWord_accepts hw] at h
    cases h
    exact ⟨hw, rfl⟩
  · rw [seleOnWord_rejects hw] at h
    cases h

/-- The fixed exponent is prime to every positive totient: 65537 is a prime above both factors (R94). -/
theorem coprime_65537_totient {p q : Half} (hp : 1 ≤ p.toNat) (hq : 1 ≤ q.toNat) (hpos : 0 < (totient p q).toNat) :
    Nat.Coprime 65537 (totient p q).toNat := by
  have hprime : Nat.Prime 65537 := by norm_num
  have below {h : Half} (h0 : h.toNat - 1 ≠ 0) : Nat.Coprime 65537 (h.toNat - 1) :=
    Nat.coprime_of_lt_prime h0 (by omega) hprime
  rw [toNat_totient hp hq] at hpos ⊢
  exact (below (Nat.pos_of_mul_pos_right hpos).ne').mul_right (below (Nat.pos_of_mul_pos_left hpos).ne')

/-- INV with φ above 1 and an exponent prime to it completes with a d whose product with e leaves the remainder 1 (R101, R102). -/
theorem invStart_inverts {e phi : Word} (hphi : 1 < phi.toNat) (hgcd : Nat.gcd e.toNat phi.toNat = 1) (dp : Datapath) :
    ∃ d, (invStart e phi dp).action = .complete (.ok d) ∧ d.toNat * e.toNat % phi.toNat = 1 :=
  ⟨_, invStart_ok hphi.le hgcd dp, Nat.mod_eq_of_modEq (normalize_mul_modEq_one hphi.le hgcd _) hphi⟩

/-- Settles O39: on the fast path the prime 65537 exceeds both factors of the totient, and on the slow path SELE has tested the gcd. -/
theorem pipelineExponentHasAnInverse : Obligations.PipelineExponentHasAnInverse := by
  rintro p q e dp dp' hp hq (hfast | ⟨-, w, hslow⟩)
  · obtain ⟨hphi, rfl⟩ := fast_of_seleStart_ok hfast
    exact invStart_inverts (e := 65537) (phi := totient p q) (by omega) (coprime_65537_totient hp hq (by omega)) dp'
  · obtain ⟨⟨hprime, hlt, hgcd⟩, rfl⟩ := accepted_of_seleOnWord_ok hslow
    exact invStart_inverts (hprime.one_lt.trans hlt) (by rwa [toNat_widen]) dp'

end Sys2Proof.Machine
end

section
/-! INV from the host's submission to its end: the unique inverse where one exists, NO_INVERSE elsewhere (R97, R99, R101, R102), and the two
arithmetic rules behind it (R96, R98). -/

namespace Sys2Proof.Machine

/-! ## The arithmetic -/

/-- Settles O34: the remainders are those of the plain gcd loop, and every iteration keeps Bézout's identity. -/
theorem extendedEuclidGivesBezout : Obligations.ExtendedEuclidGivesBezout := by
  intro e phi r _
  obtain ⟨hgcd, hzero⟩ := extEuclid_result e phi r
  exact ⟨hzero, hgcd, extEuclid_bezout e phi r⟩

/-- Settles O36: the normalization is the floor modulus, and on a value already reduced the formula's floor reading changes nothing. -/
theorem normalizationIsTheFloorModulus : Obligations.NormalizationIsTheFloorModulus := by
  intro x phi hphi
  have hfloor := toNat_normalize x hphi
  exact ⟨hfloor, by rw [hfloor, Int.add_emod_right, Int.emod_emod]⟩

/-- Where e is prime to φ, no two values below φ have the same product with e modulo φ (R102). -/
theorem eq_of_mul_modEq_of_lt {e phi c d : Nat} (hgcd : Nat.gcd e phi = 1) (hc : c < phi) (hd : d < phi)
    (h : c * e ≡ d * e [MOD phi]) : c = d :=
  (h.cancel_right_of_coprime (Nat.gcd_comm phi e ▸ hgcd)).eq_of_lt_of_lt hc hd

/-! ## The command to its ends -/

/-- Settles O21: the first engine step completes with the normalized coefficient of e, which is the inverse and the only one below φ. -/
theorem invWritesTheInverse : Obligations.InvWritesTheInverse := by
  intro s rd rs1 rs2 polls rest hready hphi hgcd
  obtain ⟨t, u, hexec, hrun, hpassed, hends⟩ := exec_ends (i := .inv rd rs1 rs2) hready (invStart_ok hphi hgcd s.datapath)
  have hlt := toNat_normalize_lt (extEuclid (readReg s rs1) (readReg s rs2) s.datapath.euclid).x0 hphi
  have hinv := normalize_mul_modEq_one hphi hgcd s.datapath.euclid
  exact ⟨t, u, _, hexec, hrun, hpassed, hends, hlt, hinv, fun m hm h => eq_of_mul_modEq_of_lt hgcd hm hlt (h.trans hinv.symm)⟩

/-- Settles O22: the first engine step completes with NO_INVERSE. -/
theorem invReportsNoInverse : Obligations.InvReportsNoInverse :=
  fun s rd rs1 rs2 _ _ hready hnone => exec_ends (i := .inv rd rs1 rs2) hready (invStart_noInverse hnone s.datapath)

end Sys2Proof.Machine
end

section
/-! What sets and clears OVR (R108) and DONE with its output done_o (R28, R106, R114), and that a host's access is no step of the engine (R111). -/

namespace Sys2Proof.Machine

variable {s t : State} {a : WriteAccess} {rest : List Event}

/-! ## OVR -/

/-- A host's write changes OVR in two ways: as a discarded write, which sets it, or as a write to STATUS with bit 4 set, which clears it (R19, R64). -/
theorem WriteMove.of_ovr_ne (hm : WriteMove s t a rest) (hne : t.ovr ≠ s.ovr) : a.wellFormed = true ∧
    ((t.ovr = true ∧ s.busy = true ∧ (targetOf a.off = .cmd ∨ ∃ k, targetOf a.off = .reg k)) ∨
      (t.ovr = false ∧ targetOf a.off = .status ∧ a.data.getLsbD 4 = true)) := by
  cases hm with
  | ignored v h => subst h; exact absurd rfl hne
  | accepted hw ht hb i hd h => subst h; exact absurd rfl hne
  | illegal hw ht hb why hd h => subst h; exact absurd rfl hne
  | discarded hw ht hb h => subst h; exact ⟨hw, .inl ⟨rfl, hb, ht⟩⟩
  | status hw ht h =>
    subst h
    cases hbit : a.data.getLsbD 4 with
    | false => exact absurd (by rw [writeStatus_ovr, hbit, Bool.not_false, Bool.and_true]) hne
    | true => exact ⟨hw, .inr ⟨by rw [writeStatus_ovr, hbit, Bool.not_true, Bool.and_false], ht, rfl⟩⟩
  | operand hw k ht hb h => subst h; exact absurd rfl hne

/-- A step changes OVR only as a host's write, or as a reset, which clears it (R108, R123). -/
theorem step_of_ovr_ne (h : step s = .next t) (hne : t.ovr ≠ s.ovr) :
    (∃ a rest, s.inputs = .hostWrite a :: rest ∧ WriteMove s t a rest) ∨
    (t.ovr = false ∧ ∃ rest, s.inputs = .reset :: rest ∨ s.inputs = .holdReset :: rest) := by
  cases step_move h with
  | command rest hs hm => exact absurd hm.frame.1 hne
  | read r rest v hs hr h => subst h; exact absurd rfl hne
  | write a rest hs hr hm => exact .inl ⟨a, rest, hs, hm⟩
  | reset rest hs h => subst h; exact .inr ⟨rfl, rest, .inl hs⟩
  | hold rest hs h => subst h; exact .inr ⟨rfl, rest, .inr hs⟩
  | release rest hs h => subst h; exact absurd rfl hne

/-- Settles O49: of the changes of OVR, only the discarded write leaves it set. -/
theorem overrunFlagIsSetByDiscardedWritesOnly : Obligations.OverrunFlagIsSetByDiscardedWritesOnly := by
  intro s t h hs ht
  have hne : t.ovr ≠ s.ovr := by simp [hs, ht]
  rcases step_of_ovr_ne h hne with ⟨a, rest, hin, hm⟩ | ⟨hclear, -⟩
  · rcases hm.of_ovr_ne hne with ⟨hw, ⟨-, hb, htarget⟩ | ⟨hclear, -⟩⟩
    · exact ⟨hb, a, rest, hin, hw, htarget⟩
    · exact absurd (ht.symm.trans hclear) (by decide)
  · exact absurd (ht.symm.trans hclear) (by decide)

/-- Settles O50: of the changes of OVR, only the write to STATUS with bit 4 set and the reset leave it clear. -/
theorem overrunFlagIsSticky : Obligations.OverrunFlagIsSticky := by
  intro s t h hs ht
  have hne : t.ovr ≠ s.ovr := by simp [hs, ht]
  rcases step_of_ovr_ne h hne with ⟨a, rest, hin, hm⟩ | ⟨-, hreset⟩
  · rcases hm.of_ovr_ne hne with ⟨hw, ⟨hset, -⟩ | ⟨-, htarget, hbit⟩⟩
    · exact absurd (hset.symm.trans ht) (by decide)
    · exact .inl ⟨a, rest, hin, hw, htarget, hbit⟩
  · exact .inr hreset

/-! ## A host's access -/

/-- While reset is asserted a host's access is refused (R122). -/
theorem step_access_held {e : Event} (hs : s.inputs = e :: rest) (he : (∃ r, e = .hostRead r) ∨ ∃ a, e = .hostWrite a)
    (hr : s.resetHeld = true) : step s = .refused .accessDuringReset := by
  rw [step_cons hs]
  rcases he with ⟨r, rfl⟩ | ⟨a, rfl⟩ <;> exact if_pos hr

/-- An access that is served finds reset released (R122). -/
theorem released_of_step_access {e : Event} (hs : s.inputs = e :: rest) (he : (∃ r, e = .hostRead r) ∨ ∃ a, e = .hostWrite a)
    (h : step s = .next t) : s.resetHeld = false := by
  by_contra hr
  rw [step_access_held hs he (by simpa using hr)] at h
  cases h

/-- A host's write takes itself off the schedule and changes neither a datapath register nor the request (R111). -/
theorem WriteMove.frame (hm : WriteMove s t a rest) : t.inputs = rest ∧ t.datapath = s.datapath ∧ t.entPending = s.entPending := by
  cases hm with
  | ignored v h => simp [h]
  | accepted hw ht hb i hd h => simp [h]
  | illegal hw ht hb why hd h => simp [h]
  | discarded hw ht hb h => simp [h]
  | status hw ht h => simp [h]
  | operand hw k ht hb h => simp [h]

/-- A host's write changes the phase and BUSY only as the acceptance of a legal word (R63). -/
theorem WriteMove.phase_cases (hm : WriteMove s t a rest) : (t.phase = s.phase ∧ t.busy = s.busy) ∨
    ∃ i, a.wellFormed = true ∧ targetOf a.off = .cmd ∧ s.busy = false ∧ decode a.data = .legal i ∧
      t = accept i { s with inputs := rest, resp := some .written } := by
  cases hm with
  | accepted hw ht hb i hd h => exact .inr ⟨i, hw, ht, hb, hd, h⟩
  | ignored v h => simp [h]
  | illegal hw ht hb why hd h => simp [h]
  | discarded hw ht hb h => simp [h]
  | status hw ht h => simp [h]
  | operand hw k ht hb h => simp [h]

/-- Settles O56: a read answers and changes nothing else; a write keeps the phase or is an acceptance, which stands before the engine's step. -/
theorem hostAccessTakesNoEngineStep : Obligations.HostAccessTakesNoEngineStep := by
  intro s t e rest hs he h
  have hr : s.resetHeld = false := released_of_step_access hs he h
  rcases he with ⟨r, rfl⟩ | ⟨a, rfl⟩
  · obtain ⟨v, hread⟩ := step_read hs hr
    cases h.symm.trans hread
    exact ⟨rfl, rfl, rfl, .inl ⟨rfl, rfl⟩⟩
  · have hm : WriteMove s t a rest := hostWrite_move ((step_hostWrite hs hr).symm.trans h)
    obtain ⟨hinputs, hdatapath, hpend⟩ := hm.frame
    refine ⟨hinputs, hdatapath, hpend, hm.phase_cases.imp_right ?_⟩
    rintro ⟨i, hw, htarget, hb, hd, rfl⟩
    exact ⟨a, i, rfl, hw, htarget, hb, hd, rfl, rfl, rfl, rfl⟩

/-! ## DONE and done_o -/

/-- An illegal word written to CMD of an idle block completes at once (R63, R106). -/
theorem writeCmd_illegal {v : Word} {why : Reject} (hd : decode v = .illegal why) (hb : s.busy = false) :
    writeCmd v s = .next (acceptIllegal s) := by
  simp [writeCmd, hd, hb]

/-- Settles O11: the served write reaches CMD, where the idle block completes the word at once. -/
theorem illegalWordCompletesAtAcceptance : Obligations.IllegalWordCompletesAtAcceptance := by
  intro s a rest why hb hs hw ho hr hd
  rw [step_write_served hs hr hw, ho, targetOf_zero]
  exact writeCmd_illegal hd hb

/-- The end of an engine step is a completion, or it leaves DONE. -/
theorem perform_done_cases (op : Opcode) (rd : RegIdx) (a b : Word) (o : Outturn) (s : State) :
    (perform op rd a b o s).done = s.done ∨ ∃ c u, perform op rd a b o s = complete rd c u := by
  rcases perform_cases op rd a b o s with ⟨c, -, ht⟩ | ⟨-, ht⟩
  · exact .inr ⟨c, _, ht⟩
  · exact .inl (by rw [ht]; rfl)

/-- A turn of the command in progress that changes DONE is its completion, which sets DONE (R67). -/
theorem CommandMove.of_done_ne (hm : CommandMove s t rest) (hne : t.done ≠ s.done) :
    ∃ op rd a b stage, s.phase = .busy op rd a b stage ∧ t.phase = .idle ∧ t.busy = false ∧ t.done = true := by
  cases hm with
  | stays h => subst h; exact absurd rfl hne
  | engine op rd a b hp h =>
    subst h
    obtain ⟨c, u, ht⟩ := (perform_done_cases ..).resolve_left hne
    exact ⟨op, rd, a, b, _, hp, by simp [ht]⟩
  | word w op rd a b o hp ho h =>
    subst h
    obtain ⟨c, u, ht⟩ := (perform_done_cases ..).resolve_left hne
    exact ⟨op, rd, a, b, _, hp, by simp [ht]⟩

/-- A host's write changes DONE only at CMD of an idle block: a legal word clears it, an illegal one sets it (R63, R106). -/
theorem WriteMove.of_done_ne (hm : WriteMove s t a rest) (hne : t.done ≠ s.done) :
    a.wellFormed = true ∧ targetOf a.off = .cmd ∧ s.busy = false ∧
      ((t.done = false ∧ ∃ i, decode a.data = .legal i) ∨ (t.done = true ∧ ∃ why, decode a.data = .illegal why)) := by
  cases hm with
  | ignored v h => subst h; exact absurd rfl hne
  | accepted hw ht hb i hd h => subst h; exact ⟨hw, ht, hb, .inl ⟨rfl, i, hd⟩⟩
  | illegal hw ht hb why hd h => subst h; exact ⟨hw, ht, hb, .inr ⟨rfl, why, hd⟩⟩
  | discarded hw ht hb h => subst h; exact absurd rfl hne
  | status hw ht h => subst h; exact absurd rfl hne
  | operand hw k ht hb h => subst h; exact absurd rfl hne

/-- A step changes DONE only as the completion of the command in progress, which sets it, as a host's write, or as a reset, which clears it (R67,
R123). -/
theorem step_of_done_ne (h : step s = .next t) (hne : t.done ≠ s.done) :
    (t.done = true ∧ ∃ op rd a b stage rest, s.phase = .busy op rd a b stage ∧ CommandTurn s.inputs rest ∧ t.phase = .idle ∧ t.busy = false) ∨
    (∃ a rest, s.inputs = .hostWrite a :: rest ∧ WriteMove s t a rest) ∨
    (t.done = false ∧ ∃ rest, s.inputs = .reset :: rest ∨ s.inputs = .holdReset :: rest) := by
  cases step_move h with
  | command rest hin hm =>
    obtain ⟨op, rd, a, b, stage, hp, hidle, hbusy, hdone⟩ := hm.of_done_ne hne
    exact .inl ⟨hdone, op, rd, a, b, stage, rest, hp, hin, hidle, hbusy⟩
  | read r rest v hin hr h => subst h; exact absurd rfl hne
  | write a rest hin hr hm => exact .inr (.inl ⟨a, rest, hin, hm⟩)
  | reset rest hin h => subst h; exact .inr (.inr ⟨rfl, rest, .inl hin⟩)
  | hold rest hin h => subst h; exact .inr (.inr ⟨rfl, rest, .inr hin⟩)
  | release rest hin h => subst h; exact absurd rfl hne

/-- Settles O57: done_o is DONE; of its changes, the completion and the illegal word set it, the legal word and the reset clear it, and a command
issued to an idle block is accepted. -/
theorem doneOutputRisesAndFalls : Obligations.DoneOutputRisesAndFalls := by
  refine ⟨?_, ?_, ?_⟩
  · intro s t h (hs : s.done = false) (ht : t.done = true)
    have hne : t.done ≠ s.done := by simp [hs, ht]
    rcases step_of_done_ne h hne with ⟨-, hcompletes⟩ | ⟨a, rest, hin, hm⟩ | ⟨hclear, -⟩
    · exact .inl hcompletes
    · obtain ⟨hw, htarget, hb, ⟨hclear, -⟩ | ⟨-, why, hd⟩⟩ := hm.of_done_ne hne
      · exact absurd (ht.symm.trans hclear) (by decide)
      · exact .inr ⟨a, rest, why, hin, hw, htarget, hb, hd⟩
    · exact absurd (ht.symm.trans hclear) (by decide)
  · intro s t h (hs : s.done = true) (ht : t.done = false)
    have hne : t.done ≠ s.done := by simp [hs, ht]
    rcases step_of_done_ne h hne with ⟨hset, -⟩ | ⟨a, rest, hin, hm⟩ | ⟨-, hreset⟩
    · exact absurd (hset.symm.trans ht) (by decide)
    · obtain ⟨hw, htarget, hb, ⟨-, i, hd⟩ | ⟨hset, -⟩⟩ := hm.of_done_ne hne
      · exact .inl ⟨a, rest, i, hin, hw, htarget, hb, hd⟩
      · exact absurd (hset.symm.trans ht) (by decide)
    · exact .inr hreset
  · intro s t i hb h
    cases (exec_idle i hb).symm.trans h
    rfl

end Sys2Proof.Machine
end

section
/-! Reset from any state and while it is asserted (R122–R125), and that the block stops only at an access during reset (93 row 4). -/

namespace Sys2Proof.Machine

variable {s : State} {rest : List Event}

/-! ## The block after reset -/

/-- After reset, released or held, the tuple of R29 is that of R30 (R123). -/
theorem sameTuple_resetBlock (s : State) (held : Bool) : SameTuple State.reset { resetBlock s with resetHeld := held } :=
  ⟨rfl, rfl, rfl, rfl, rfl, rfl, rfl, rfl⟩

/-- Settles O59: the turn is `resetBlock`, whatever the state was; STATUS and the registers are those of `State.reset`. -/
theorem resetFromAnyState : Obligations.ResetFromAnyState := by
  intro s rest hs
  obtain ⟨hregs, hstatus, -⟩ := resetValues
  exact ⟨resetBlock { s with inputs := rest }, step_cons hs, rfl, rfl, sameTuple_resetBlock { s with inputs := rest } false,
    (statusWord_congr rfl rfl rfl rfl).trans hstatus, rfl, fun k => (readReg_congr rfl k).trans (hregs k)⟩

/-- Settles O60: a held block refuses an access, and in the reset state it is idle with no request, so neither the engine nor a word moves it. -/
theorem assertedResetServesNoAccess : Obligations.AssertedResetServesNoAccess := by
  refine ⟨fun s rest hs => ?_, fun s r rest hr hs => ?_, fun s a rest hr hs => ?_, fun s e rest _ hreset hs he => ?_, fun s rest hs => ?_⟩
  · exact ⟨_, step_cons hs, rfl, rfl, sameTuple_resetBlock { s with inputs := rest } true⟩
  · exact step_access_held hs (.inl ⟨r, rfl⟩) hr
  · exact step_access_held hs (.inr ⟨a, rfl⟩) hr
  · obtain ⟨-, -, -, -, -, -, hphase, hpend⟩ := hreset
    rcases he with rfl | ⟨w, rfl⟩
    · have hidle : ∀ op rd a b, s.phase ≠ .busy op rd a b .compute := by simp [hphase, State.reset]
      exact (idleOrWaitingEngineTakesNoStep s hidle).2 rest hs
    · exact step_unrequested hs hpend
  · exact step_cons hs

/-! ## Where a step stops -/

/-- A host's write that reaches the block always goes on: it takes effect, is discarded or ignored, or gets a bus error (R39, R107). -/
theorem hostWrite_goesOn (a : WriteAccess) (s : State) : ∃ t, hostWrite a s = .next t := by
  unfold hostWrite
  split
  · cases targetOf a.off with
    | cmd =>
      cases hd : decode a.data with
      | legal i => exact ⟨_, by rw [writeTarget, writeCmd, hd]; exact exec_eq_issue i _⟩
      | illegal why => exact ⟨_, by rw [writeTarget, writeCmd, hd]⟩
    | status => exact ⟨_, rfl⟩
    | drawCnt => exact ⟨_, rfl⟩
    | reserved => exact ⟨_, rfl⟩
    | reg k => exact ⟨_, rfl⟩
  · exact ⟨_, rfl⟩

/-- A command that may draw has a continuation for every word (R69). -/
theorem exists_onWord_of_mayDraw {op : Opcode} {a : Word} (h : mayDraw op a = true) (w : Half) (dp : Datapath) :
    ∃ o, onWord op a w dp = some o := by
  cases op with
  | genp => exact ⟨_, rfl⟩
  | sele => exact ⟨_, rfl⟩
  | tot => cases h
  | inv => cases h
  | gcd => cases h
  | isprime => cases h

/-- Under the invariants a request comes from a command that waits and may draw (R27, R69). -/
theorem State.Inv.waiting_of_pending (hi : s.Inv) (he : s.entPending = true) :
    ∃ op rd a b, s.phase = .busy op rd a b .awaitDraw ∧ mayDraw op a = true := by
  have hwait : s.phase.isWaiting = true := hi.pending_iff ▸ he
  have hsound := hi.phase_sound
  cases hp : s.phase with
  | idle => rw [hp] at hwait; cases hwait
  | busy op rd a b stage =>
    rw [hp] at hwait hsound
    cases stage with
    | compute => cases hwait
    | awaitDraw => exact ⟨op, rd, a, b, rfl, hsound⟩

/-- Under the invariants no word faults: it is discarded, or a drawing command takes it (R68, R125). -/
theorem deliver_stepsSafely (hi : s.Inv) {w : Half} (hs : s.inputs = .deliver w :: rest) : s.stepsSafely := by
  cases he : s.entPending with
  | false => exact ⟨_, step_unrequested hs he⟩
  | true =>
    obtain ⟨op, rd, a, b, hp, hdraw⟩ := hi.waiting_of_pending he
    obtain ⟨o, ho⟩ := exists_onWord_of_mayDraw hdraw w s.datapath
    exact ⟨_, step_deliver_requested hp he hs ho⟩

/-- Under the invariants a step goes on, or it is a host's access while reset is asserted, which is refused (R122). -/
theorem stepsSafely_or_access_held (hi : s.Inv) : s.stepsSafely ∨ (s.resetHeld = true ∧ step s = .refused .accessDuringReset ∧
    ∃ rest, (∃ r, s.inputs = .hostRead r :: rest) ∨ ∃ a, s.inputs = .hostWrite a :: rest) := by
  cases hs : s.inputs with
  | nil => exact .inl ⟨_, step_engineTurn (rest := []) (by rw [hs]; rfl)⟩
  | cons e rest =>
    cases e with
    | hostRead r =>
      cases hr : s.resetHeld with
      | true => exact .inr ⟨rfl, step_access_held hs (.inl ⟨r, rfl⟩) hr, rest, .inl ⟨r, rfl⟩⟩
      | false => exact .inl ⟨_, step_hostRead hs hr⟩
    | hostWrite a =>
      cases hr : s.resetHeld with
      | true => exact .inr ⟨rfl, step_access_held hs (.inr ⟨a, rfl⟩) hr, rest, .inr ⟨a, rfl⟩⟩
      | false =>
        obtain ⟨t, ht⟩ := hostWrite_goesOn a { s with inputs := rest }
        exact .inl ⟨t, (step_hostWrite hs hr).trans ht⟩
    | deliver w => exact .inl (deliver_stepsSafely hi hs)
    | engine => exact .inl ⟨_, step_cons hs⟩
    | reset => exact .inl ⟨_, step_cons hs⟩
    | holdReset => exact .inl ⟨_, step_cons hs⟩
    | releaseReset => exact .inl ⟨_, step_cons hs⟩

/-- Settles O55: a step that goes on neither faults nor refuses, and the one other step is the refusal of an access. -/
theorem onlyAccessesDuringResetStop : Obligations.OnlyAccessesDuringResetStop := by
  intro s hi
  rcases stepsSafely_or_access_held hi with ⟨t, ht⟩ | ⟨hheld, hrefused, haccess⟩
  · rw [ht]
    exact ⟨fun _ hf => (nomatch hf), fun _ hr => (nomatch hr)⟩
  · rw [hrefused]
    refine ⟨fun _ hf => (nomatch hf), fun r hr => ?_⟩
    cases hr
    exact ⟨rfl, hheld, haccess⟩

end Sys2Proof.Machine
end
